-- ==== Sys2Proof/Word.lean ====
section
/-! DEFINITION. The word types. A state word is an unsigned integer of `W` bits and a buffer byte one of 8
bits (00_scope.md section 5.1, 10_state.md R20); their shifts, exclusive or and wrapping addition are the
operations of `BitVec`, which read as 00_scope.md section 5.2 says (logical right shift, left shift within
the word, addition modulo `2^W`). -/

namespace Sys2Proof

/-- One byte: of the SEEDB buffer, or of the command bus. -/
abbrev Byte := BitVec 8

/-- One state word of width `W`. -/
abbrev Word (W : Nat) := BitVec W

/-- `MAXW = 2^W - 1`, "the maximum representable word value (all bits set)" (00_scope.md section 5.1). -/
abbrev maxWord (W : Nat) : Word W := BitVec.allOnes W

end Sys2Proof
end

