-- ==== Sys2Proof/Config.lean ====
section
/-! DEFINITION. The variant configuration of one instance (00_scope.md R7 to R11): its fields, when it is well
formed (R9), and the values the spec leaves open. A `Config` is a tuple together with the proof that it is
well formed, so that an instance cannot be built from any other tuple (R9, 93_implementation_defined.md U11). -/

namespace Sys2Proof

/-- `OP`, the combine operator (R7). -/
inductive CombineOp
  | add
  | xor
  deriving DecidableEq, Repr

/-- `XFORM1`, the step of a one-word shift register (R11, R82, D9), named as data: the default `lrl`, its
mirror `rlr`, and `unstated`, any bijection of the 64-bit words that fixes 0, given by the opaque
`Config.xform1Perm`. A statement for every `XFORM1` covers all three. DESIGN CHOICE, safe (log 8). -/
inductive Xform1
  | lrl
  | rlr
  | unstated
  deriving DecidableEq, Repr

/-- `QCTR32`, what SEEDQ writes to the counter on a 32-bit-word variant (R11, R114). -/
inductive Qctr32
  | indexed
  | zero
  | hi
  deriving DecidableEq, Repr

/-- The configuration tuple `(R, W, a, b, c, OP, K)` of R7 with the open parameters of R11, as plain numbers;
the defaults are those of R11. -/
structure Cfg where
  R : Nat
  W : Nat
  a : Nat
  b : Nat
  c : Nat
  op : CombineOp
  K : Nat := 362437
  xform1 : Xform1 := .lrl
  qctr32 : Qctr32 := .indexed
  deriving DecidableEq, Repr

/-- The constraints of R9, in its order. `OP ∈ {ADD, XOR}` holds by the type. -/
def Cfg.wf (c : Cfg) : Bool :=
  (c.W == 32 || c.W == 64) &&
  decide (2 ≤ c.R) &&
  decide (c.W = 32 → 3 ≤ c.R) &&
  decide (c.W = 64 → c.R ≤ 3) &&
  decide (0 < c.a ∧ c.a < c.W) &&
  decide (0 < c.b ∧ c.b < c.W) &&
  decide (0 < c.c ∧ c.c < c.W) &&
  decide (0 < c.K ∧ c.K < 2 ^ c.W ∧ c.K % 2 = 1) &&
  decide (64 ≤ c.R * c.W)

/-- A well-formed configuration: what one instance implements (R4, R9). -/
structure Config extends Cfg where
  ok : toCfg.wf = true
  deriving DecidableEq, Repr

/-- Building an instance's configuration from a tuple; `none`: "the model refuses to build an instance from
any other tuple" (R9). -/
def Cfg.build? (c : Cfg) : Option Config :=
  if h : c.wf = true then some ⟨c, h⟩ else none

/-- Number of shift-register words, `R - 1` (R7). -/
abbrev Config.nReg (c : Config) : Nat := c.R - 1

/-- Width of `din` and `sout`, `R·W` (30_encoding.md R71). -/
abbrev Config.busBits (c : Config) : Nat := c.R * c.W

/-- Bytes of the SEEDB operand, `R·W/8` (20_memory.md R43). -/
abbrev Config.busBytes (c : Config) : Nat := c.R * c.W / 8

/-- The SEEDB operand of an instance: "vector of exactly `R·W/8` bytes; a shorter or longer buffer is not a value of that
type" (R43). -/
abbrev SeedBuffer (c : Config) := Vector Byte c.busBytes

/-- Bytes of one word, `n = W/8` (20_memory.md R41). -/
abbrev Config.wordBytes (c : Config) : Nat := c.W / 8

/-- What well-formedness gives, as one proposition. -/
theorem Config.spec (c : Config) :
    (c.W = 32 ∨ c.W = 64) ∧ 2 ≤ c.R ∧ (c.W = 32 → 3 ≤ c.R) ∧ (c.W = 64 → c.R ≤ 3) ∧
    (0 < c.a ∧ c.a < c.W) ∧ (0 < c.b ∧ c.b < c.W) ∧ (0 < c.c ∧ c.c < c.W) ∧
    (0 < c.K ∧ c.K < 2 ^ c.W ∧ c.K % 2 = 1) ∧ 64 ≤ c.R * c.W := by
  have h := c.ok
  simp only [Cfg.wf, Bool.and_eq_true, Bool.or_eq_true, beq_iff_eq, decide_eq_true_eq] at h
  tauto

/-- The shift register has at least one word. -/
theorem Config.nReg_pos (c : Config) : 0 < c.nReg := by
  have := c.spec.2.1
  show 0 < c.R - 1
  omega

/-- On a 32-bit-word variant `reg[1]` is a register word (R9's comment on `W = 32`). -/
theorem Config.one_lt_nReg (c : Config) (h : c.W = 32) : 1 < c.nReg := by
  have := c.spec.2.2.1 h
  show 1 < c.R - 1
  omega

/-- FREE VALUE. The word at position `i` of an instance that has been reset and not yet seeded. The spec gives
none and forbids assuming one (10_state.md R32, U6), so the constant has no body. DESIGN CHOICE, unsafe (log 3). -/
opaque Config.unseededWord (W : Nat) (i : Nat) : Word W

/-- FREE VALUE. The permutation behind `Xform1.unstated`, for a shift triple (R82: "a bijection fixing zero"; D9, U3).
`xform1` moves its value at 0 back to 0. DESIGN CHOICE, safe (log 8). -/
opaque Config.xform1Perm (a b c : Nat) : Equiv.Perm (Word 64)

/-- The seven rows of R8, under this spec's names. -/
inductive Variant
  | v96
  | v128
  | v160
  | v192
  | v64a
  | v64b
  | v128d
  deriving DecidableEq, Repr

end Sys2Proof
end

