-- ==== Sys2Proof/Machine/Variants.lean ====
section
/-! DEFINITION. The table of configurations (00_scope.md R8): seven rows, each with either combine operator. -/

namespace Sys2Proof

/-- The row of R8's table: `(R, W, (a, b, c))`. -/
def Variant.row : Variant → Nat × Nat × (Nat × Nat × Nat)
  | .v96 => (4, 32, (10, 5, 26))
  | .v128 => (5, 32, (5, 14, 1))
  | .v160 => (6, 32, (2, 1, 4))
  | .v192 => (7, 32, (2, 1, 4))
  | .v64a => (2, 64, (13, 7, 17))
  | .v64b => (2, 64, (13, 19, 28))
  | .v128d => (3, 64, (23, 17, 26))

/-- The configuration tuple of a row with an operator and the open parameters of R11 (defaults: R11's). -/
def Variant.cfg (v : Variant) (op : CombineOp) (K : Nat := 362437) (xform1 : Xform1 := .lrl)
    (qctr32 : Qctr32 := .indexed) : Cfg where
  R := v.row.1
  W := v.row.2.1
  a := v.row.2.2.1
  b := v.row.2.2.2.1
  c := v.row.2.2.2.2
  op := op
  K := K
  xform1 := xform1
  qctr32 := qctr32

/-- `Vx_OP` with the parameters at their defaults. -/
def Variant.config (v : Variant) (op : CombineOp) : Config :=
  ⟨v.cfg op, by cases v <;> cases op <;> decide⟩

/-- The configuration with another combine operator: the `ADD` and the `XOR` variant of one row (R8). -/
def Config.withOp (c : Config) (op : CombineOp) : Config :=
  ⟨{ c.toCfg with op := op }, c.ok⟩

/-- The configuration of `Machine.State.reset`: `V160_ADD` with the default parameters. DESIGN CHOICE (log 2): the
spec's variant with the one numeric example (95_test_vectors.md P3). -/
def resetConfig : Config := Variant.config .v160 .add

end Sys2Proof
end

