-- ==== Sys2Proof/Machine/State.lean ====
section
/-! DEFINITION. The state of one instance (10_state.md), the port's events and responses, the reasons a step can
stop, and the state after reset. -/

namespace Sys2Proof.Machine

/-- The words of GeneratorState, "the only persistent entity" (10_state.md R20): `reg[0 .. n-1]`, newest first, and
the Weyl counter `ctr`. With `n = R - 1`, `s[i] = reg[i]` for `i ≤ R-2` and `s[R-1] = ctr` (R21). -/
structure GenState (W n : Nat) where
  reg : Vector (Word W) n
  ctr : Word W
  deriving DecidableEq, Repr

/-- `s[0], s[1], ..., s[R-1]`, the ordered word sequence (R20, R21): register words newest first, then the counter. -/
def GenState.words {W n : Nat} (g : GenState W n) : List (Word W) := g.reg.toList ++ [g.ctr]

/-- One thing the host does at the port (30_encoding.md R71): present a command, or assert `rst`
(70_reset_and_hazards.md R190). `b` is the width of `din`. -/
inductive PortEvent (b : Nat)
  | command (cmd : Byte) (din : BitVec b)
  | reset
  deriving DecidableEq, Repr

/-- The response of the command last completed (30_encoding.md R70, 20_memory.md R51). A command that does not
produce a bus has a response without that bus (93_implementation_defined.md U8; log 6). -/
inductive Response (b : Nat)
  /-- No response since reset (10_state.md R32). -/
  | noResponse
  /-- Completion only: CLOCK, SEEDB, SEEDQ. -/
  | done
  /-- NEXT32, NEXT64. -/
  | dout (v : BitVec 64)
  /-- DUMP. -/
  | sout (v : BitVec b)
  deriving DecidableEq, Repr

/-- What stops the machine by a fault: nothing. "The hardware raises no synchronous exception, ever" (60_exceptions.md
R170), and there is no trap entry or return (R175, R176); so nobody raises a fault, which is safe. -/
inductive Fault
  deriving DecidableEq, Repr

/-- Why a step has no meaning (60_exceptions.md R171, R172). There is none for the size of an operand (R183). -/
inductive Refusal
  /-- Raised by `exec` for a command with no meaning yet. Safe. -/
  | notModelled (mnemonic : String)
  /-- Raised by the port for a byte other than `0x01` to `0x06`, whether or not the instance is seeded (R64, R172). Safe:
  the spec gives the byte no behaviour. -/
  | reservedCommand
  /-- Raised by CLOCK, NEXT32, NEXT64 and DUMP while `valid = 0` (R171). Safe: the spec gives no behaviour. -/
  | unseeded
  deriving DecidableEq, Repr

/-- The state: the configuration of the instance (00_scope.md R4; log 1), the `valid` bit (10_state.md R25), the
state words (R20), the last response, and what the host has still to present (R26, log 4). -/
structure State where
  cfg : Config
  valid : Bool
  gen : GenState cfg.W cfg.nReg
  rsp : Response cfg.busBits
  pending : List (PortEvent cfg.busBits)
  deriving DecidableEq, Repr

/-- The three outcomes of a step. -/
abbrev Result := Host.Outcome State Fault Refusal

/-- The words of an instance that has been reset and not seeded: no value is known of them (10_state.md R32; log 3). -/
def GenState.unseeded (W n : Nat) : GenState W n where
  reg := Vector.ofFn fun i => Config.unseededWord W i
  ctr := Config.unseededWord W n

/-- The state of 70_reset_and_hazards.md R191 for a configuration, with a host about to present `pending`. -/
def State.afterReset (cfg : Config) (pending : List (PortEvent cfg.busBits)) : State where
  cfg := cfg
  valid := false
  gen := .unseeded cfg.W cfg.nReg
  rsp := .noResponse
  pending := pending

/-- The machine right after reset: the instance of `resetConfig` (log 2), with nothing presented yet. -/
def State.reset : State := .afterReset resetConfig []

end Sys2Proof.Machine
end

