-- ==== Sys2Proof/Machine/Flags.lean ====
section
/-! DEFINITION. The block has no flags (10_state.md R27): sums record no carry and no overflow. The one flag-like bit
is `valid` (R25): what reads it (SEEDB and SEEDQ set it, reset clears it). -/

namespace Sys2Proof.Machine

/-- CLOCK, NEXT32, NEXT64 and DUMP read `valid` first: "if valid = 0: refuse Unseeded" (60_exceptions.md R171). -/
def whenSeeded (s : State) (k : Result) : Result :=
  if s.valid then k else .refused .unseeded

end Sys2Proof.Machine
end

