-- ==== Sys2Proof/Syntax.lean ====
section
/-! DEFINITION. The command set (30_encoding.md R61, R69; spec/opcode_table.json): one constructor a row. A
command carries the operand that its byte selects from `din` and nothing else (93_implementation_defined.md
U9: a command type has no field for ignored bits). The type is one for all configurations, so SEEDB carries its operand
as the number that `din` carries (20_memory.md R42, 30_encoding.md R67); the buffer of exactly `R·W/8` bytes that an
instance reads from it is `Machine.seedOperand` (R43; log 9). -/

namespace Sys2Proof

/-- A command. `seedb` carries the value of `din`, "the little-endian value of the buffer" (R42, R62); `seedq` the 64-bit
seed (R63). -/
inductive Instr
  /-- `CLOCK`, R84. -/
  | clock
  /-- `SEEDB buf`, R110. -/
  | seedb (din : Nat)
  /-- `SEEDQ seed`, R113 and R115. -/
  | seedq (seed : BitVec 64)
  /-- `NEXT32`, R131. -/
  | next32
  /-- `NEXT64`, R132 and R133. -/
  | next64
  /-- `DUMP`, R150. -/
  | dump
  deriving DecidableEq, Repr

end Sys2Proof
end

