-- ==== Sys2Proof/WellFormed.lean ====
section
/-! DEFINITION. When a command is written with the number its input bus carries. The input bus has exactly `R·W` wires
(20_memory.md R42, R43), so the SEEDB operand of an instance is a number below `2^(R·W)`; a number with more bits has no
wires for them and names the same operand as without them (log 9). No meaning tests this: it is what makes the
encoding unique. The check on a configuration is `Cfg.wf`. -/

namespace Sys2Proof

/-- The command's operand is a number that the instance's input bus carries (R42, R43). -/
def Instr.wellFormed (cfg : Config) : Instr → Bool
  | .clock => true
  | .seedb din => decide (din < 2 ^ cfg.busBits)
  | .seedq _ => true
  | .next32 => true
  | .next64 => true
  | .dump => true

end Sys2Proof
end

