-- ==== Sys2Proof/Decode.lean ====
section
/-! DEFINITION. The one command format `CMD8` (30_encoding.md R60 to R65): the decoder from the port's pair
(`cmd`, `din`) to a command, total, and the encoder back. Operand layout: 20_memory.md R41, R42. -/

namespace Sys2Proof

/-- The value of the field `op` of R60, by name. -/
inductive Op
  | clock
  | seedb
  | seedq
  | next32
  | next64
  | dump
  deriving DecidableEq, Repr

/-- A row of the opcode map: `cmd & mask = pattern` spells `op` (R61). -/
structure OpRow where
  pattern : Byte
  mask : Byte
  op : Op
  deriving DecidableEq, Repr

/-- The opcode map of R61 (spec/opcode_table.json). -/
def opcodeTable : List OpRow :=
  [⟨0x01, 0xFF, .clock⟩, ⟨0x02, 0xFF, .seedb⟩, ⟨0x03, 0xFF, .seedq⟩,
   ⟨0x04, 0xFF, .next32⟩, ⟨0x05, 0xFF, .next64⟩, ⟨0x06, 0xFF, .dump⟩]

/-- A row's test on a command byte. -/
def OpRow.accepts (r : OpRow) (cmd : Byte) : Bool := cmd &&& r.mask == r.pattern

/-- Which command a byte spells, if any. -/
def decodeOp (cmd : Byte) : Option Op := (opcodeTable.find? (·.accepts cmd)).map (·.op)

/-- The unsigned value of bytes in little-endian order, first byte least significant (R41). -/
def leNat : List Byte → Nat
  | [] => 0
  | b :: bs => b.toNat + 256 * leNat bs

/-- `buf[j] = din[8j+7:8j]` for `0 ≤ j ≤ R·W/8 - 1` (R42, R62). -/
def busToBytes (cfg : Config) (din : BitVec cfg.busBits) : SeedBuffer cfg :=
  Vector.ofFn fun j => din.extractLsb' (8 * j.val) 8

/-- The value of `din` that presents a buffer: "`din` is the little-endian value of the buffer" (R42, R67). -/
def bufferValue {cfg : Config} (buf : SeedBuffer cfg) : Nat := leNat buf.toList

/-- Why a command byte is refused. Closed; raised by `decode` only; safe: the spec gives the byte no behaviour (R64). -/
inductive DecodeReject
  /-- R64: one of the 250 bytes other than `0x01` to `0x06`. -/
  | reservedCommand
  deriving DecidableEq, Repr

/-- The command an operation takes from the input bus (R61's operand column). -/
def Op.withOperand (cfg : Config) (din : BitVec cfg.busBits) : Op → Instr
  | .clock => .clock
  | .seedb => .seedb din.toNat
  | .seedq => .seedq (din.extractLsb' 0 64)
  | .next32 => .next32
  | .next64 => .next64
  | .dump => .dump

/-- The decoder (R61, R64). -/
def decode (cfg : Config) (cmd : Byte) (din : BitVec cfg.busBits) : Except DecodeReject Instr :=
  match decodeOp cmd with
  | some op => .ok (op.withOperand cfg din)
  | none => .error .reservedCommand

/-- The operation of a command. -/
def Instr.op : Instr → Op
  | .clock => .clock
  | .seedb _ => .seedb
  | .seedq _ => .seedq
  | .next32 => .next32
  | .next64 => .next64
  | .dump => .dump

/-- The command byte of an operation, from the same table. -/
def Op.byte (op : Op) : Byte := ((opcodeTable.find? (·.op = op)).map (·.pattern)).getD 0

/-- What a command drives on `din`: SEEDB its value, SEEDQ the seed zero-extended (R67), otherwise zeros, which the
block ignores (R42; DESIGN CHOICE, safe, log 10). -/
def Instr.operandBus (cfg : Config) : Instr → BitVec cfg.busBits
  | .clock => 0
  | .seedb din => BitVec.ofNat cfg.busBits din
  | .seedq seed => seed.setWidth cfg.busBits
  | .next32 => 0
  | .next64 => 0
  | .dump => 0

/-- The encoder: "the encoding of a line is the pair `(cmd, din)`" (R67). -/
def encode (cfg : Config) (i : Instr) : Byte × BitVec cfg.busBits :=
  (i.op.byte, i.operandBus cfg)

/-- The pair (`cmd`, value of `din`) of an instruction given as one number of `nbits` bits, numbered as
spec/opcode_table.json numbers them: `cmd` is bits 7..0 and `din` follows from bit 8 up (log 11); bits at and above `nbits`
are 0. -/
def tableCommand (nbits w : Nat) : Byte × Nat :=
  (BitVec.ofNat 8 (w % 2 ^ nbits), w % 2 ^ nbits / 256)

/-- What the decoder reads from a table word, on the instance of `resetConfig`. -/
def decodeTableWord (nbits w : Nat) : Option Instr :=
  let p := tableCommand nbits w
  (decode resetConfig p.1 (BitVec.ofNat resetConfig.busBits p.2)).toOption

end Sys2Proof
end

