-- ==== Sys2Proof/Machine/Operands.lean ====
section
/-! DEFINITION. Operand and result forms: bytes to words on the way in (20_memory.md R41, R42; 30_encoding.md R62,
R63), words to `dout` and `sout` on the way out (R51). -/

namespace Sys2Proof.Machine

/-- The operand of SEEDB as the instance reads it: the bytes of its input bus, exactly `R·W/8` of them (R42, R43). -/
def seedOperand (cfg : Config) (din : Nat) : SeedBuffer cfg := busToBytes cfg (BitVec.ofNat cfg.busBits din)

/-- Word `i` of a SEEDB buffer: the `W/8` bytes from `i·W/8` on, the first least significant (R41, R111). -/
def bufferWord (cfg : Config) (buf : SeedBuffer cfg) (i : Nat) : Word cfg.W :=
  BitVec.ofNat cfg.W (leNat ((buf.toList.drop (i * cfg.wordBytes)).take cfg.wordBytes))

/-- `lo = seed[31:0]` (R63). -/
def seedLo (seed : BitVec 64) : BitVec 32 := seed.extractLsb' 0 32

/-- `hi = seed[63:32]` (R63). -/
def seedHi (seed : BitVec 64) : BitVec 32 := seed.extractLsb' 32 32

/-- `TBL(seed)[i mod 4]`, with `TBL(seed) = [lo, ~lo, hi, ~hi]` (R113). -/
def seedTable (seed : BitVec 64) (i : Nat) : BitVec 32 :=
  match i % 4 with
  | 0 => seedLo seed
  | 1 => ~~~ seedLo seed
  | 2 => seedHi seed
  | _ => ~~~ seedHi seed

/-- `dout` of a 32-bit result: `dout[31:0] = v`, `dout[63:32] = 0` (R51). -/
def doutOf32 (v : BitVec 32) : BitVec 64 := v.setWidth 64

/-- The value whose `W`-bit digits are the given words, the first least significant (R42, R51). -/
def wordsNat {W : Nat} : List (Word W) → Nat
  | [] => 0
  | w :: ws => w.toNat + 2 ^ W * wordsNat ws

/-- `sout[W·i+W-1 : W·i] = s[i]` for `i = 0 .. R-1` (R51, R150). -/
def soutOf (cfg : Config) (g : GenState cfg.W cfg.nReg) : BitVec cfg.busBits :=
  BitVec.ofNat cfg.busBits (wordsNat g.words)

end Sys2Proof.Machine
end

