-- ==== Sys2Proof/Machine/Ops.lean ====
section
/-! DEFINITION. The named functions of the spec (00_scope.md section 5.3) and reset. A command is one record
update over them: the state words and the response. The block takes no exception and returns from none (60_exceptions.md
R170, R175, R176); the one event beside a command is reset (70_reset_and_hazards.md R190). -/

namespace Sys2Proof.Machine

/-- `XFORM(x, y)` with the triple `(a, b, c)` (40_xorshift_register_engine.md R81). -/
def xform {W : Nat} (a b c : Nat) (x y : Word W) : Word W :=
  let t1 := x ^^^ (x >>> a)
  let t2 := t1 ^^^ (t1 <<< b)
  t2 ^^^ y ^^^ (y <<< c)

/-- The default `XFORM1`: left, right, left (R82). -/
def xform1Lrl {W : Nat} (a b c : Nat) (x : Word W) : Word W :=
  let t1 := x ^^^ (x <<< a)
  let t2 := t1 ^^^ (t1 >>> b)
  t2 ^^^ (t2 <<< c)

/-- The mirror of the default: right, left, right (R82 (iii)). -/
def xform1Rlr {W : Nat} (a b c : Nat) (x : Word W) : Word W :=
  let t1 := x ^^^ (x >>> a)
  let t2 := t1 ^^^ (t1 <<< b)
  t2 ^^^ (t2 >>> c)

/-- An unstated `XFORM1`: some bijection of the 64-bit words, its value at 0 exchanged for 0 (R82, D9). A one-word
shift register has `W = 64` (R9), where the two changes of width are the identity. -/
def xform1Unstated {W : Nat} (a b c : Nat) (x : Word W) : Word W :=
  let p := Config.xform1Perm a b c
  (Equiv.swap (p 0) 0 (p (x.setWidth 64))).setWidth W

/-- `XFORM1(x)` of the configuration (R82). -/
def xform1 (cfg : Config) (x : Word cfg.W) : Word cfg.W :=
  match cfg.xform1 with
  | .lrl => xform1Lrl cfg.a cfg.b cfg.c x
  | .rlr => xform1Rlr cfg.a cfg.b cfg.c x
  | .unstated => xform1Unstated cfg.a cfg.b cfg.c x

/-- The newest register word, `reg[0]` (R21). -/
def newest (cfg : Config) (reg : Vector (Word cfg.W) cfg.nReg) : Word cfg.W :=
  reg[0]'cfg.nReg_pos

/-- The oldest register word, `reg[R-2]` (R21). -/
def oldest (cfg : Config) (reg : Vector (Word cfg.W) cfg.nReg) : Word cfg.W :=
  reg[cfg.nReg - 1]'(Nat.sub_lt cfg.nReg_pos Nat.one_pos)

/-- The word that enters the window: `XFORM1` of the one word when `R = 2` (R82), else `XFORM` of the oldest and the
newest word (R80, R83). -/
def nextWord (cfg : Config) (reg : Vector (Word cfg.W) cfg.nReg) : Word cfg.W :=
  if cfg.R = 2 then xform1 cfg (newest cfg reg)
  else xform cfg.a cfg.b cfg.c (oldest cfg reg) (newest cfg reg)

/-- `SR_STEP(reg)`: `reg'[0]` is the new word and `reg'[i] = reg[i-1]` (R80, R82, R83), all read from the old words. -/
def srStep (cfg : Config) (reg : Vector (Word cfg.W) cfg.nReg) : Vector (Word cfg.W) cfg.nReg :=
  Vector.ofFn fun i => if i.val = 0 then nextWord cfg reg else reg[i.val - 1]

/-- `WEYL_STEP(ctr) = (ctr + K) mod 2^W` (41_weyl_counter_stage.md R100), an addition under every `OP` (R104). -/
def weylStep (cfg : Config) (ctr : Word cfg.W) : Word cfg.W :=
  ctr + BitVec.ofNat cfg.W cfg.K

/-- `CLOCK(s)`: one register step and one counter step together (R84). -/
def clock (cfg : Config) (g : GenState cfg.W cfg.nReg) : GenState cfg.W cfg.nReg where
  reg := srStep cfg g.reg
  ctr := weylStep cfg g.ctr

/-- `COMB(u, v)` under a combine operator (43_prng_output_combiner.md R130). -/
def comb {W : Nat} (op : CombineOp) (u v : Word W) : Word W :=
  match op with
  | .add => u + v
  | .xor => u ^^^ v

/-- The result of NEXT32 on the clocked state: `COMB(s'[0], s'[R-1])`, its low 32 bits, on `dout` (R131). -/
def out32 (cfg : Config) (g : GenState cfg.W cfg.nReg) : BitVec 64 :=
  doutOf32 ((comb cfg.op (newest cfg g.reg) g.ctr).setWidth 32)

/-- The result of NEXT64 on the clocked state: on a 32-bit-word variant the two 32-bit combinations `high ++ low`
of `s'[1]` and `s'[0]` (R132); on a 64-bit-word variant `COMB(s'[0], s'[R-1])` (R133). -/
def out64 (cfg : Config) (g : GenState cfg.W cfg.nReg) : BitVec 64 :=
  if h : cfg.W = 32 then
    let high := comb cfg.op (g.reg[1]'(cfg.one_lt_nReg h)) g.ctr
    let low := comb cfg.op (newest cfg g.reg) g.ctr
    high.setWidth 32 ++ low.setWidth 32
  else (comb cfg.op (newest cfg g.reg) g.ctr).setWidth 64

/-- The zero escape on the register words: when all are zero, all become all ones (42_prng_seeding_logic.md R112). -/
def zeroEscape {W n : Nat} (reg : Vector (Word W) n) : Vector (Word W) n :=
  if ∀ i : Fin n, reg[i] = 0 then Vector.ofFn fun _ => maxWord W else reg

/-- `SEED_BYTES(buf)` (R110 to R112): the words of the buffer, register words through the zero escape, counter
verbatim. -/
def seedBytes (cfg : Config) (buf : SeedBuffer cfg) : GenState cfg.W cfg.nReg where
  reg := zeroEscape (Vector.ofFn fun i => bufferWord cfg buf i)
  ctr := bufferWord cfg buf cfg.nReg

/-- `QCTR32(seed)`: the counter word SEEDQ writes on a 32-bit-word variant (R114). -/
def qctr32Word (cfg : Config) (seed : BitVec 64) : BitVec 32 :=
  match cfg.qctr32 with
  | .indexed => seedTable seed (cfg.R - 1)
  | .zero => 0
  | .hi => seedHi seed

/-- `SEED_U64(seed)` for `W = 32` (R113, R114); the changes of width are then the identity. -/
def seedU64Narrow (cfg : Config) (seed : BitVec 64) : GenState cfg.W cfg.nReg where
  reg := Vector.ofFn fun i => (seedTable seed i).setWidth cfg.W
  ctr := (qctr32Word cfg seed).setWidth cfg.W

/-- `SEED_U64(seed)` for `W = 64` (R115): word 0 is the seed, or all ones when the seed is 0; the second register
word, if present, the seed itself; the counter the complement of the seed. -/
def seedU64Wide (cfg : Config) (seed : BitVec 64) : GenState cfg.W cfg.nReg where
  reg := Vector.ofFn fun i =>
    (if i.val = 0 ∧ seed = 0 then maxWord 64 else seed).setWidth cfg.W
  ctr := (~~~ seed).setWidth cfg.W

/-- `SEED_U64(seed)`: which form is fixed by `W` (R120). -/
def seedU64 (cfg : Config) (seed : BitVec 64) : GenState cfg.W cfg.nReg :=
  if cfg.W = 32 then seedU64Narrow cfg seed else seedU64Wide cfg seed

/-- The same instance with another combine operator: same words, `valid`, response and commands to come (R137). -/
def State.withOp (s : State) (op : CombineOp) : State where
  cfg := s.cfg.withOp op
  valid := s.valid
  gen := s.gen
  rsp := s.rsp
  pending := s.pending

/-- Reset: the state of R191 for the same configuration, whatever the state was (R190). -/
def resetInstance (s : State) : State := .afterReset s.cfg s.pending

end Sys2Proof.Machine
end

