-- ==== Sys2Proof/Machine/Engine.lean ====
section
/-! DEFINITION. The register engine's command, `CLOCK` (40_xorshift_register_engine.md). -/

namespace Sys2Proof.Machine

/-- `CLOCK`: `s <- CLOCK(s)`, respond with no data (R84). -/
def execClock (s : State) : Result :=
  whenSeeded s (.next { s with gen := clock s.cfg s.gen, rsp := .done })

end Sys2Proof.Machine
end

