-- ==== Sys2Proof/Machine/Observe.lean ====
section
/-! DEFINITION. State observation, `DUMP` (44_state_observation_and_facade.md). -/

namespace Sys2Proof.Machine

/-- `DUMP`: respond with the `R` state words, change nothing else (R150). -/
def execDump (s : State) : Result :=
  whenSeeded s (.next { s with rsp := .sout (soutOf s.cfg s.gen) })

end Sys2Proof.Machine
end

