-- ==== Sys2Proof/Machine/Output.lean ====
section
/-! DEFINITION. The output commands, `NEXT32` and `NEXT64` (43_prng_output_combiner.md): one clock step, then a
result from the state after it (R134). -/

namespace Sys2Proof.Machine

/-- `NEXT32` (R131). -/
def execNext32 (s : State) : Result :=
  let g := clock s.cfg s.gen
  whenSeeded s (.next { s with gen := g, rsp := .dout (out32 s.cfg g) })

/-- `NEXT64` (R132, R133). -/
def execNext64 (s : State) : Result :=
  let g := clock s.cfg s.gen
  whenSeeded s (.next { s with gen := g, rsp := .dout (out64 s.cfg g) })

end Sys2Proof.Machine
end

