-- ==== Sys2Proof/Machine/Seeding.lean ====
section
/-! DEFINITION. The seeding commands, `SEEDB` and `SEEDQ` (42_prng_seeding_logic.md): accepted at any time, whatever
`valid` is, and reading no previous state (R117, R118). -/

namespace Sys2Proof.Machine

/-- `SEEDB buf`: `s <- SEED_BYTES(buf); valid <- 1`, respond with no data (R110). The buffer is what the instance's
input bus presents, so there is no size to test and nothing to refuse (R43, R183; log 9). -/
def execSeedb (din : Nat) (s : State) : Result :=
  .next { s with gen := seedBytes s.cfg (seedOperand s.cfg din), valid := true, rsp := .done }

/-- `SEEDQ seed`: `s <- SEED_U64(seed); valid <- 1`, respond with no data (R113, R115). -/
def execSeedq (seed : BitVec 64) (s : State) : Result :=
  .next { s with gen := seedU64 s.cfg seed, valid := true, rsp := .done }

end Sys2Proof.Machine
end

