-- ==== Sys2Proof/Machine/Dispatch.lean ====
section
/-! DEFINITION. One arm a command: the meaning it runs. -/

namespace Sys2Proof.Machine

def exec (i : Instr) (s : State) : Host.Outcome State Fault Refusal :=
  match i with
  | .clock => Sys2Proof.Machine.execClock s
  | .seedb din => Sys2Proof.Machine.execSeedb din s
  | .seedq seed => Sys2Proof.Machine.execSeedq seed s
  | .next32 => Sys2Proof.Machine.execNext32 s
  | .next64 => Sys2Proof.Machine.execNext64 s
  | .dump => Sys2Proof.Machine.execDump s

end Sys2Proof.Machine
end

