-- ==== Sys2Proof/Machine/Port.lean ====
section
/-! DEFINITION. The command port (30_encoding.md R72): the block takes the host's events one at a time, in order, and
runs each to completion. -/

namespace Sys2Proof.Machine

/-- An accepted command: decoded first, so that a reserved byte is refused whether or not the instance is seeded
(60_exceptions.md R172, R174), then run. -/
def runCommand (s : State) (cmd : Byte) (din : BitVec s.cfg.busBits) : Result :=
  match decode s.cfg cmd din with
  | .ok i => exec i s
  | .error .reservedCommand => .refused .reservedCommand

/-- One step: the host's next event, or, when it has none, nothing at all (10_state.md R36; log 5). -/
def portStep (s : State) : Result :=
  match s.pending with
  | [] => .next s
  | .reset :: rest => .next (resetInstance { s with pending := rest })
  | .command cmd din :: rest => runCommand { s with pending := rest } cmd din

/-- The host presents one more command, before all others. -/
def present (s : State) (cmd : Byte) (din : Nat) : State :=
  { s with pending := .command cmd (BitVec.ofNat s.cfg.busBits din) :: s.pending }

end Sys2Proof.Machine
end

