-- ==== Sys2Proof/Machine/Step.lean ====
section
/-! DEFINITION. One step of the machine, and the placing of one instruction where the next step takes it. -/

namespace Sys2Proof.Machine

/-- One step: one event of the port (30_encoding.md R72, 70_reset_and_hazards.md R196). -/
def step (s : State) : Host.Outcome State Fault Refusal := portStep s

/-- `s` with the host about to present the table word `w` of `nbits` bits: the command port is where this machine
takes its next instruction (10_state.md R26; logs 4, 11). -/
def State.withFetchWord (s : State) (nbits w : Nat) : State :=
  present s (tableCommand nbits w).1 (tableCommand nbits w).2

end Sys2Proof.Machine
end

