-- ==== Sys2Proof/Machine/Assembler.lean ====
section
/-! DEFINITION. Programs as the spec writes them (30_encoding.md R67, R68): lines and directives, expanded to port
events before the block sees anything. Lines are syntax trees; the characters of a line are not modelled (log 12). -/

namespace Sys2Proof.Machine

/-- A command as a line writes it (R67): SEEDB with its bytes, `buf[0]` first. -/
inductive AsmCommand
  | clock
  | seedb (bytes : List Byte)
  | seedq (seed : BitVec 64)
  | next32
  | next64
  | dump
  deriving DecidableEq, Repr

/-- A line: a command, or a pseudo-instruction of R68. The names of the document's section 6 are accepted as
aliases, each standing for the command of that row. -/
inductive AsmLine
  | command (c : AsmCommand)
  | rep (n : Nat) (c : AsmCommand)
  | skip (n : Nat)
  | nextU32
  | nextU64
  | seedFromU64 (x : BitVec 64)
  | seedFromBytes (bytes : List Byte)
  | dumpState
  | byte (b : Byte)
  deriving DecidableEq, Repr

/-- A program: `.variant`, the `.param` lines (defaults where a parameter is not named), then the lines (R67). -/
structure AsmProgram where
  variant : Variant
  op : CombineOp
  K : Nat := 362437
  xform1 : Xform1 := .lrl
  qctr32 : Qctr32 := .indexed
  lines : List AsmLine
  deriving DecidableEq, Repr

/-- The bytes of a line as a SEEDB operand, or `none`: "mis-sized input is rejected at compile/construction time, not
via a runtime error path" (20_memory.md R43). -/
def seedBuffer? (cfg : Config) (bytes : List Byte) : Option (SeedBuffer cfg) :=
  if h : bytes.length = cfg.busBytes then some ⟨bytes.toArray, h⟩ else none

/-- The command a line names, for a variant; `none` when SEEDB has not "exactly R·W/8" bytes (R67). -/
def AsmCommand.instr? (cfg : Config) : AsmCommand → Option Instr
  | .clock => some .clock
  | .seedb bytes => (seedBuffer? cfg bytes).map fun buf => .seedb (bufferValue buf)
  | .seedq seed => some (.seedq seed)
  | .next32 => some .next32
  | .next64 => some .next64
  | .dump => some .dump

/-- The port event of a command: the pair `(cmd, din)` (R67). -/
def commandEvent (cfg : Config) (i : Instr) : PortEvent cfg.busBits := .command (encode cfg i).1 (encode cfg i).2

/-- One command assembled. -/
def assembleCommand (cfg : Config) (c : AsmCommand) : Option (PortEvent cfg.busBits) :=
  (c.instr? cfg).map (commandEvent cfg)

/-- The commands a line expands to (R68), but for `.byte`, which names none. -/
def AsmLine.commands : AsmLine → List AsmCommand
  | .command c => [c]
  | .rep n c => List.replicate n c
  | .skip n => List.replicate n .clock
  | .nextU32 => [.next32]
  | .nextU64 => [.next64]
  | .seedFromU64 x => [.seedq x]
  | .seedFromBytes bytes => [.seedb bytes]
  | .dumpState => [.dump]
  | .byte _ => []

/-- One line assembled: its commands, or the raw command byte with `din = 0` (R68). -/
def assembleLine (cfg : Config) (l : AsmLine) : Option (List (PortEvent cfg.busBits)) :=
  match l with
  | .byte b => some [.command b 0]
  | l => l.commands.mapM (assembleCommand cfg)

/-- A list of lines assembled in order. -/
def assemble (cfg : Config) : List AsmLine → Option (List (PortEvent cfg.busBits))
  | [] => some []
  | l :: ls =>
    match assembleLine cfg l, assemble cfg ls with
    | some es, some rest => some (es ++ rest)
    | _, _ => none

/-- The instance a program names, right after reset, with the host about to present the program; `none` when the
parameters are not well formed (00_scope.md R9) or a line does not assemble. -/
def AsmProgram.load (p : AsmProgram) : Option State :=
  match (p.variant.cfg p.op p.K p.xform1 p.qctr32).build? with
  | some cfg => (assemble cfg p.lines).map (State.afterReset cfg)
  | none => none

end Sys2Proof.Machine
end

