-- ==== Sys2Proof/Safety.lean ====
section
/-! DEFINITION. What counts as a safe run: the non-degeneracy invariant (10_state.md R22), a host that keeps the boot
rule (70_reset_and_hazards.md R192), and what the host can see of a state. -/

namespace Sys2Proof.Machine

/-- Invariant I1 (R22): "in every state with `valid = 1`, `reg[0] | reg[1] | ... | reg[R-2] ≠ 0`". -/
abbrev State.NonDegenerate (s : State) : Prop :=
  s.valid = true → ∃ i : Fin s.cfg.nReg, s.gen.reg[i] ≠ 0

/-- The host's list keeps the boot rule from a point where the `valid` bit is `v`: no reserved byte, and no CLOCK, NEXT32,
NEXT64 or DUMP before a seeding command since reset (R64, R192). -/
def keepsBootRule {b : Nat} : Bool → List (PortEvent b) → Bool
  | _, [] => true
  | _, .reset :: es => keepsBootRule false es
  | v, .command cmd _ :: es =>
    match decodeOp cmd with
    | some .seedb => keepsBootRule true es
    | some .seedq => keepsBootRule true es
    | some .clock => v && keepsBootRule v es
    | some .next32 => v && keepsBootRule v es
    | some .next64 => v && keepsBootRule v es
    | some .dump => v && keepsBootRule v es
    | none => false

/-- A response as the host reads it, its value a number. -/
inductive ResponseView
  | noResponse
  | done
  | dout (v : Nat)
  | sout (v : Nat)
  deriving DecidableEq, Repr

/-- A response as numbers. -/
def Response.view {b : Nat} : Response b → ResponseView
  | .noResponse => .noResponse
  | .done => .done
  | .dout v => .dout v.toNat
  | .sout v => .sout v.toNat

/-- What a host can ever learn from a state, as plain numbers. -/
structure HostView where
  rsp : ResponseView
  valid : Bool
  words : List Nat
  deriving DecidableEq, Repr

/-- The last response, whether the instance is seeded, and, only when it is, the words DUMP would give (10_state.md
R24, R31). -/
def State.hostView (s : State) : HostView where
  rsp := s.rsp.view
  valid := s.valid
  words := if s.valid then s.gen.words.map (·.toNat) else []

/-- An outcome as the host sees it: the view of a next state, or the reason the run is refused for good
(60_exceptions.md R171). -/
def outcomeView : Result → Except Refusal HostView
  | .next s => .ok s.hostView
  | .refused r => .error r

end Sys2Proof.Machine
end

