-- ==== Sys2Proof/Certificates/Slice0/Obligations.lean ====
section
/-! DEFINITION. Statements for the provers, from the numbered rules of spec/. `s.cfg` ranges over every well-formed
configuration: all fourteen variants of R8, every odd `K`, every `XFORM1` (the unstated one included) and every
`QCTR32`. A meaning's next state is written as the old state with the changed fields named, which is the
instruction's whole frame: configuration, `valid`, words, response and the host's list are unchanged unless
named. -/

open Sys2Proof Sys2Proof.Machine

/-! ## Configurations -/

/-- R9: the model builds an instance from exactly the tuples that meet the constraints, and every row of R8 meets them
with any odd `K`. -/
def Obligations.ConfigurationsAreTheWellFormedTuples : Prop :=
  (∀ c : Cfg, c.wf = true ↔
    ((c.W = 32 ∨ c.W = 64) ∧ 2 ≤ c.R ∧ (c.W = 32 → 3 ≤ c.R) ∧ (c.W = 64 → c.R ≤ 3) ∧
      (0 < c.a ∧ c.a < c.W) ∧ (0 < c.b ∧ c.b < c.W) ∧ (0 < c.c ∧ c.c < c.W) ∧
      (c.op = .add ∨ c.op = .xor) ∧ (0 < c.K ∧ c.K < 2 ^ c.W ∧ c.K % 2 = 1) ∧ 64 ≤ c.R * c.W)) ∧
  (∀ c : Cfg, c.wf = false ↔ c.build? = none) ∧
  (∀ (c : Cfg) (cfg : Config), c.build? = some cfg ↔ cfg.toCfg = c) ∧
  (∀ (v : Variant) (op : CombineOp) (K : Nat) (x : Xform1) (q : Qctr32),
    K < 2 ^ (v.cfg op K x q).W → K % 2 = 1 → (v.cfg op K x q).wf = true)

/-- R8: the table of configurations, with the register bits, state bits and seed buffer bytes of each row. -/
def Obligations.VariantTableOfSevenRows : Prop :=
  ∀ op : CombineOp,
    [Variant.v96, .v128, .v160, .v192, .v64a, .v64b, .v128d].map (fun v =>
      let c := v.config op
      ((c.R, c.W), (c.a, c.b, c.c), c.nReg * c.W, c.busBits, c.busBytes, c.op)) =
    [((4, 32), (10, 5, 26), 96, 128, 16, op),
     ((5, 32), (5, 14, 1), 128, 160, 20, op),
     ((6, 32), (2, 1, 4), 160, 192, 24, op),
     ((7, 32), (2, 1, 4), 192, 224, 28, op),
     ((2, 64), (13, 7, 17), 64, 128, 16, op),
     ((2, 64), (13, 19, 28), 64, 128, 16, op),
     ((3, 64), (23, 17, 26), 128, 192, 24, op)]

/-- R4: no step changes the configuration. -/
def Obligations.StepKeepsTheConfiguration : Prop :=
  ∀ s t : State, step s = .next t → t.cfg = s.cfg

/-! ## Decoding, the port and reset -/

/-- R61, on words written out from the encoding of R60 (`cmd[7:3] = 00000`, `cmd[2:0] = op`), with an operand. -/
def Obligations.SixCommandWordsDecode : Prop :=
  decode resetConfig 0b00000001 0 = .ok .clock ∧
  decode resetConfig 0b00000010 0x80 = .ok (.seedb 0x80) ∧
  decode resetConfig 0b00000011 1234 = .ok (.seedq 1234) ∧
  decode resetConfig 0b00000100 0 = .ok .next32 ∧
  decode resetConfig 0b00000101 0 = .ok .next64 ∧
  decode resetConfig 0b00000110 0 = .ok .dump ∧
  decode resetConfig 0b00001001 0 = .error .reservedCommand

/-- R61: the opcode map, for every command byte, with its operand column (the whole byte is matched), and its result
column: which bus the response of each command carries. -/
def Obligations.DecoderIsTheOpcodeMap : Prop :=
  (∀ (cfg : Config) (cmd : Byte) (din : BitVec cfg.busBits),
    (decode cfg cmd din = .ok .clock ↔ cmd.toNat = 1) ∧
    (∀ v, decode cfg cmd din = .ok (.seedb v) ↔ cmd.toNat = 2 ∧ v = din.toNat) ∧
    (∀ j < cfg.R * cfg.W / 8, (seedOperand cfg din.toNat)[j]? = some (din.extractLsb' (8 * j) 8)) ∧
    (∀ seed, decode cfg cmd din = .ok (.seedq seed) ↔ cmd.toNat = 3 ∧ seed = din.extractLsb' 0 64) ∧
    (decode cfg cmd din = .ok .next32 ↔ cmd.toNat = 4) ∧
    (decode cfg cmd din = .ok .next64 ↔ cmd.toNat = 5) ∧
    (decode cfg cmd din = .ok .dump ↔ cmd.toNat = 6) ∧
    (decode cfg cmd din = .error .reservedCommand ↔ cmd.toNat = 0 ∨ 7 ≤ cmd.toNat)) ∧
  (∀ s t : State,
    (exec .clock s = .next t → t.rsp = .done) ∧
    (∀ v, exec (.seedb v) s = .next t → t.rsp = .done) ∧
    (∀ seed, exec (.seedq seed) s = .next t → t.rsp = .done) ∧
    (exec .next32 s = .next t → ∃ v : BitVec 64, v.toNat < 2 ^ 32 ∧ t.rsp = .dout v) ∧
    (exec .next64 s = .next t → ∃ v, t.rsp = .dout v) ∧
    (exec .dump s = .next t → ∃ v, t.rsp = .sout v))

/-- Decode and encode agree on every well-formed command of every configuration. -/
def Obligations.DecodeOfEncodeIsTheCommand : Prop :=
  ∀ (cfg : Config) (i : Instr), i.wellFormed cfg = true →
    decode cfg (encode cfg i).1 (encode cfg i).2 = .ok i

/-- What the decoder reads is well formed, and the encoder gives its byte back, and its bus where all of it is used. -/
def Obligations.EncodeOfDecodeIsTheWord : Prop :=
  ∀ (cfg : Config) (cmd : Byte) (din : BitVec cfg.busBits) (i : Instr), decode cfg cmd din = .ok i →
    i.wellFormed cfg = true ∧ (encode cfg i).1 = cmd ∧ (i.op = .seedb → (encode cfg i).2 = din)

/-- R42: bytes and words of the SEEDB operand on `din`, the SEEDQ seed in `din[63:0]`, and the bits a command ignores. The
rule's "every configuration has R·W ≥ 128" is true of the configurations of R8 and stated of those. -/
def Obligations.InputBusLayout : Prop :=
  (∀ (cfg : Config) (din : BitVec cfg.busBits), decode cfg 0x02 din = .ok (.seedb din.toNat) ∧
    let buf := seedOperand cfg din.toNat
    (∀ (j : Nat) (h : j < cfg.R * cfg.W / 8), buf[j] = din.extractLsb' (8 * j) 8) ∧
    (∀ i < cfg.R, bufferWord cfg buf i = din.extractLsb' (cfg.W * i) cfg.W) ∧
    leNat buf.toList = din.toNat) ∧
  (∀ (cfg : Config) (din : BitVec cfg.busBits), decode cfg 0x03 din = .ok (.seedq (din.extractLsb' 0 64))) ∧
  (∀ (cfg : Config) (din din' : BitVec cfg.busBits) (cmd : Byte),
    cmd = 0x01 ∨ cmd = 0x04 ∨ cmd = 0x05 ∨ cmd = 0x06 → decode cfg cmd din = decode cfg cmd din') ∧
  (∀ (v : Variant) (op : CombineOp), 128 ≤ (v.config op).busBits)

/-- R43, R183: the SEEDB operand has exactly `R·(W/8)` bytes by its type, one buffer for each content of the input bus; SEEDB
of any buffer completes, and no command is refused for its operand. -/
def Obligations.SeedbOperandHasExactlyTheBusSize : Prop :=
  (∀ (cfg : Config) (buf : SeedBuffer cfg), buf.toList.length = cfg.R * (cfg.W / 8)) ∧
  (∀ cfg : Config, Function.Bijective (busToBytes cfg)) ∧
  (∀ (cfg : Config) (buf : SeedBuffer cfg),
    (Instr.seedb (bufferValue buf)).wellFormed cfg = true ∧ seedOperand cfg (bufferValue buf) = buf) ∧
  (∀ (s : State) (buf : SeedBuffer s.cfg), ∃ t, exec (.seedb (bufferValue buf)) s = .next t) ∧
  (∀ (s : State) (i : Instr) (r : Refusal), exec i s = .refused r → r = .unseeded)

/-- The number a SEEDB term carries reaches an instance over `R·W` wires: more bits change nothing (the model's choice of a
number for the operand, log 9). -/
def Obligations.SeedbReadsOnlyTheBus : Prop :=
  ∀ (s : State) (n : Nat),
    exec (.seedb n) s = exec (.seedb (n % 2 ^ (s.cfg.R * s.cfg.W))) s ∧ ∃ t, exec (.seedb n) s = .next t

/-- A step takes the host's next event: a command that decodes runs its meaning on the state with that event gone; a
byte that does not is refused; reset (R190, R191); and with nothing presented nothing changes (R36; log 5). -/
def Obligations.StepRunsTheNextPortEvent : Prop :=
  (∀ (s : State) (cmd : Byte) (din : BitVec s.cfg.busBits) (rest : List (PortEvent s.cfg.busBits)) (i : Instr),
    s.pending = .command cmd din :: rest → decode s.cfg cmd din = .ok i →
    step s = exec i { s with pending := rest }) ∧
  (∀ (s : State) (cmd : Byte) (din : BitVec s.cfg.busBits) (rest : List (PortEvent s.cfg.busBits)),
    s.pending = .command cmd din :: rest → decode s.cfg cmd din = .error .reservedCommand →
    step s = .refused .reservedCommand) ∧
  (∀ (s : State) (rest : List (PortEvent s.cfg.busBits)), s.pending = .reset :: rest →
    ∃ g, step s = .next { s with valid := false, gen := g, rsp := .noResponse, pending := rest }) ∧
  (∀ s : State, s.pending = [] → step s = .next s)

/-- The instruction placed by `withFetchWord` is the one the next step runs (the model's placing of a table word: logs 4
and 11). -/
def Obligations.FetchWordIsTheNextCommand : Prop :=
  ∀ (s : State) (nbits w : Nat) (i : Instr),
    decode s.cfg (BitVec.ofNat 8 (w % 2 ^ nbits)) (BitVec.ofNat s.cfg.busBits (w % 2 ^ nbits / 256)) = .ok i →
    step (s.withFetchWord nbits w) = exec i s

/-- R172, R171, R174: the outcome of one command at the port, reserved byte before `valid`; a refused run stays refused. -/
def Obligations.CommandOutcomeTable : Prop :=
  ∀ (s : State) (cmd : Byte) (din : BitVec s.cfg.busBits) (rest : List (PortEvent s.cfg.busBits)),
    s.pending = .command cmd din :: rest →
    (¬ (1 ≤ cmd.toNat ∧ cmd.toNat ≤ 6) →
      ∀ k, Host.Core.run core (k + 1) s = .refused .reservedCommand) ∧
    ((cmd.toNat = 1 ∨ cmd.toNat = 4 ∨ cmd.toNat = 5 ∨ cmd.toNat = 6) → s.valid = false →
      ∀ k, Host.Core.run core (k + 1) s = .refused .unseeded) ∧
    ((cmd.toNat = 1 ∨ cmd.toNat = 4 ∨ cmd.toNat = 5 ∨ cmd.toNat = 6) → s.valid = true → ∃ t, step s = .next t) ∧
    ((cmd.toNat = 2 ∨ cmd.toNat = 3) → ∃ t, step s = .next t)

/-- R170, R183: no step faults, and the only refusals of a step are the two of R171 and R172 (so never one for the size of
a buffer). -/
def Obligations.StepStopsOnlyByTheTwoRefusals : Prop :=
  ∀ s : State, (∀ f, step s ≠ .fault f) ∧
    (∀ r, step s = .refused r → r = .reservedCommand ∨ r = .unseeded)

/-- R25: `valid` is 0 after reset, set by the completion of SEEDB or SEEDQ only, and cleared by reset only; when it is 1
every command has its effect, and when it is 0 four of them are refused. -/
def Obligations.ValidBitLifecycle : Prop :=
  State.reset.valid = false ∧
  (∀ s t : State, step s = .next t → s.pending.head? = some .reset → t.valid = false) ∧
  (∀ s t : State, step s = .next t → s.valid = true → s.pending.head? ≠ some .reset → t.valid = true) ∧
  (∀ s t : State, step s = .next t → s.valid = false → t.valid = true →
    ∃ din, s.pending.head? = some (.command 0x02 din) ∨ s.pending.head? = some (.command 0x03 din)) ∧
  (∀ (s t : State) (v : Nat), exec (.seedb v) s = .next t → t.valid = true) ∧
  (∀ (s t : State) (seed : BitVec 64), exec (.seedq seed) s = .next t → t.valid = true) ∧
  (∀ (s : State) (i : Instr), s.valid = true → ∃ t, exec i s = .next t) ∧
  (∀ (s : State) (i : Instr), s.valid = false → i = .clock ∨ i = .next32 ∨ i = .next64 ∨ i = .dump →
    exec i s = .refused .unseeded)

/-- R190: reset cannot fail, reads nothing, leaves the instance unseeded with no response; it is the only event beside a
command that changes anything, and the only one after which `valid` has gone to 0. That a step with nothing presented exists and changes nothing is the
model's reading of R36 (log 5). -/
def Obligations.ResetReadsNothingAndCannotFail : Prop :=
  (∀ (s : State) (rest : List (PortEvent s.cfg.busBits)), s.pending = .reset :: rest →
    (∃ g, step s = .next { s with valid := false, gen := g, rsp := .noResponse, pending := rest }) ∧
    ∀ (g : GenState s.cfg.W s.cfg.nReg) (v : Bool) (r : Response s.cfg.busBits),
      step { s with gen := g, valid := v, rsp := r } = step s) ∧
  (∀ s : State, s.pending = [] → step s = .next s) ∧
  (∀ s t : State, step s = .next t → s.valid = true → t.valid = false → s.pending.head? = some .reset)

/-- R32, R191 (the spec's own reset values: `valid = 0`, no response); that this instance is `V160_ADD` and that nothing is
pending are the model's choices (logs 2 and 4). -/
def Obligations.ResetStateAsTheSpecSays : Prop :=
  State.reset.valid = false ∧ State.reset.rsp = .noResponse ∧ State.reset.pending = [] ∧
  State.reset.cfg = Variant.config .v160 .add ∧
  ∀ cfg : Config, (State.afterReset cfg []).valid = false ∧ (State.afterReset cfg []).rsp = .noResponse ∧
    (State.afterReset cfg []).cfg = cfg

/-! ## The register engine and CLOCK -/

/-- R84 with R80, R81 and R100: CLOCK completes when seeded, every word moves one position, the transform of the oldest and
newest word enters at position 0, the counter adds `K`; for `R = 2` the default `XFORM1` of R82. -/
def Obligations.ClockStepsRegisterAndCounterOnce : Prop :=
  (∀ (cfg : Config) (din : BitVec cfg.busBits), decode cfg 0x01 din = .ok .clock) ∧
  (∀ s : State, s.valid = false → exec .clock s = .refused .unseeded) ∧
  ∀ s : State, s.valid = true → ∃ g : GenState s.cfg.W s.cfg.nReg,
    exec .clock s = .next { s with gen := g, rsp := .done } ∧
    g.ctr.toNat = (s.gen.ctr.toNat + s.cfg.K) % 2 ^ s.cfg.W ∧
    (∀ (i : Nat) (h : i + 1 < s.cfg.nReg), g.reg[i + 1] = s.gen.reg[i]) ∧
    (3 ≤ s.cfg.R →
      let x := s.gen.reg[s.cfg.R - 2]'(by have := s.cfg.spec.2.1; show s.cfg.R - 2 < s.cfg.R - 1; omega)
      let y := s.gen.reg[0]'s.cfg.nReg_pos
      let t1 := x ^^^ (x >>> s.cfg.a)
      let t2 := t1 ^^^ (t1 <<< s.cfg.b)
      g.reg[0]'s.cfg.nReg_pos = t2 ^^^ y ^^^ (y <<< s.cfg.c)) ∧
    (s.cfg.R = 2 → s.cfg.xform1 = .lrl →
      let x := s.gen.reg[0]'s.cfg.nReg_pos
      let t1 := x ^^^ (x <<< s.cfg.a)
      let t2 := t1 ^^^ (t1 >>> s.cfg.b)
      g.reg[0]'s.cfg.nReg_pos = t2 ^^^ (t2 <<< s.cfg.c))

/-- R89: the step per configuration, unrolled, for either operator, every odd `K`, every `QCTR32` and every `XFORM1`: on a
one-word register it is the parameter `XFORM1`, which is `x ^= x << a; x ^= x >> b; x ^= x << c` with the row's triple
where the configuration has the default `LRL` (R82). -/
def Obligations.StepUnrolledPerVariant : Prop :=
  ∀ (op : CombineOp) (K : Nat) (x : Xform1) (q : Qctr32),
    let at' := fun (v : Variant) (h : (v.cfg op K x q).wf = true) => (⟨v.cfg op K x q, h⟩ : Config)
    (∀ h r0 r1 r2, srStep (at' .v96 h) #v[r0, r1, r2] = #v[xform 10 5 26 r2 r0, r0, r1]) ∧
    (∀ h r0 r1 r2 r3, srStep (at' .v128 h) #v[r0, r1, r2, r3] = #v[xform 5 14 1 r3 r0, r0, r1, r2]) ∧
    (∀ h r0 r1 r2 r3 r4, srStep (at' .v160 h) #v[r0, r1, r2, r3, r4] = #v[xform 2 1 4 r4 r0, r0, r1, r2, r3]) ∧
    (∀ h r0 r1 r2 r3 r4 r5, srStep (at' .v192 h) #v[r0, r1, r2, r3, r4, r5] =
      #v[xform 2 1 4 r5 r0, r0, r1, r2, r3, r4]) ∧
    (∀ h r0 r1, srStep (at' .v128d h) #v[r0, r1] = #v[xform 23 17 26 r1 r0, r0]) ∧
    (∀ h r0, srStep (at' .v64a h) #v[r0] = #v[xform1 (at' .v64a h) r0] ∧
      (x = .lrl → xform1 (at' .v64a h) r0 = xform1Lrl 13 7 17 r0)) ∧
    (∀ h r0, srStep (at' .v64b h) #v[r0] = #v[xform1 (at' .v64b h) r0] ∧
      (x = .lrl → xform1 (at' .v64b h) r0 = xform1Lrl 13 19 28 r0))

/-- R87: `XFORM` is linear over GF(2), and for fixed `y` a bijection in `x`. -/
def Obligations.XformLinearAndBijective : Prop :=
  ∀ (W a b c : Nat),
    (∀ x1 x2 y1 y2 : Word W, xform a b c (x1 ^^^ x2) (y1 ^^^ y2) = xform a b c x1 y1 ^^^ xform a b c x2 y2) ∧
    (0 < a → 0 < b → ∀ y : Word W, Function.Bijective fun x => xform a b c x y)

/-- R82, D9: every `XFORM1` of a one-word configuration, the unstated one included, is a bijection that fixes 0, and so
maps no other word to 0. -/
def Obligations.Xform1BijectiveFixingZero : Prop :=
  ∀ cfg : Config, cfg.R = 2 →
    Function.Bijective (xform1 cfg) ∧ xform1 cfg 0 = 0 ∧ ∀ x, x ≠ 0 → xform1 cfg x ≠ 0

/-- R85: `SR_STEP` is a bijection of the register contents, fixes the all-zero content, and maps non-zero contents to
non-zero contents; for `R ≥ 3`, how the old words are found from the new ones. For `R = 2` with an `XFORM1` other than the
default R85 makes the bijection a premise: there it is the model's choice that every `XFORM1` is one (log 8). -/
def Obligations.RegisterStepBijectiveFixingZero : Prop :=
  ∀ cfg : Config,
    Function.Bijective (srStep cfg) ∧
    srStep cfg (Vector.replicate cfg.nReg 0) = Vector.replicate cfg.nReg 0 ∧
    (∀ reg, reg ≠ Vector.replicate cfg.nReg 0 → srStep cfg reg ≠ Vector.replicate cfg.nReg 0) ∧
    (∀ (hR : 3 ≤ cfg.R) (reg : Vector (Word cfg.W) cfg.nReg),
      (∀ (i : Nat) (h : i + 1 < cfg.nReg), reg[i] = (srStep cfg reg)[i + 1]) ∧
      ∀ x : Word cfg.W,
        xform cfg.a cfg.b cfg.c x ((srStep cfg reg)[1]'(by show 1 < cfg.R - 1; omega)) =
            (srStep cfg reg)[0]'cfg.nReg_pos ↔
          x = reg[cfg.R - 2]'(by show cfg.R - 2 < cfg.R - 1; omega))

/-- R90: after `t` steps `reg[i]` is the word that was newest `i` steps ago (or the seeded word `reg[i-t]`), and each new
word is the transform of the newest word and the word `R-2` steps older. -/
def Obligations.RegisterRecurrence : Prop :=
  ∀ (cfg : Config) (reg : Vector (Word cfg.W) cfg.nReg),
    let v := fun t => newest cfg ((srStep cfg)^[t] reg)
    (∀ (t i : Nat) (h : i < cfg.nReg), i ≤ t → ((srStep cfg)^[t] reg)[i] = v (t - i)) ∧
    (∀ (t i : Nat) (h : i < cfg.nReg), t < i → ((srStep cfg)^[t] reg)[i] = reg[i - t]) ∧
    (3 ≤ cfg.R → ∀ t, cfg.R - 2 ≤ t → v (t + 1) = xform cfg.a cfg.b cfg.c (v (t - (cfg.R - 2))) (v t)) ∧
    (3 ≤ cfg.R → ∀ (t : Nat) (h : t < cfg.R - 2),
      v (t + 1) = xform cfg.a cfg.b cfg.c
        (reg[cfg.R - 2 - t]'(by show _ < cfg.R - 1; omega)) (v t))

/-! ## The Weyl counter -/

/-- R103: the counter after `t` steps, its period `2^W`, and that within `2^W` consecutive steps no two states are equal. -/
def Obligations.CounterClosedFormAndPeriod : Prop :=
  ∀ (cfg : Config) (g : GenState cfg.W cfg.nReg),
    (∀ t, ((clock cfg)^[t] g).ctr.toNat = (g.ctr.toNat + t * cfg.K) % 2 ^ cfg.W) ∧
    (∀ t u, t < 2 ^ cfg.W → u < 2 ^ cfg.W → ((clock cfg)^[t] g).ctr = ((clock cfg)^[u] g).ctr → t = u) ∧
    ((clock cfg)^[2 ^ cfg.W] g).ctr = g.ctr ∧
    (∀ t u, t < 2 ^ cfg.W → u < 2 ^ cfg.W → (clock cfg)^[t] g = (clock cfg)^[u] g → t = u)

/-- R105: the period of the whole state is the least common multiple of the register's and `2^W`; a register period of
`2^n - 1` is odd and makes it `(2^n - 1)·2^W`. Nothing is said here of which configurations have that register period
(R86). -/
def Obligations.WholeStatePeriod : Prop :=
  ∀ (cfg : Config) (g : GenState cfg.W cfg.nReg),
    Function.minimalPeriod (clock cfg) g = Nat.lcm (Function.minimalPeriod (srStep cfg) g.reg) (2 ^ cfg.W) ∧
    Odd (2 ^ (cfg.nReg * cfg.W) - 1) ∧
    Nat.lcm (2 ^ (cfg.nReg * cfg.W) - 1) (2 ^ cfg.W) = (2 ^ (cfg.nReg * cfg.W) - 1) * 2 ^ cfg.W

/-! ## Seeding -/

/-- R110, R111, R112: SEEDB always completes; with `buf` the buffer the instance reads, word `i` is the little-endian value
of its bytes; when every register word is zero all become all ones, else none is altered; the counter word is verbatim;
`valid` is set. -/
def Obligations.SeedbLoadsTheBuffer : Prop :=
  ∀ (s : State) (din : Nat),
    let buf := (seedOperand s.cfg din).toList
    let n := s.cfg.W / 8
    let w := fun i => ∑ k ∈ Finset.range n, (buf.getD (i * n + k) 0).toNat * 2 ^ (8 * k)
    ∃ g : GenState s.cfg.W s.cfg.nReg,
      exec (.seedb din) s = .next { s with gen := g, valid := true, rsp := .done } ∧
      g.ctr.toNat = w (s.cfg.R - 1) ∧
      ((∀ i < s.cfg.R - 1, w i = 0) →
        ∀ (i : Nat) (h : i < s.cfg.nReg), g.reg[i].toNat = 2 ^ s.cfg.W - 1) ∧
      (¬ (∀ i < s.cfg.R - 1, w i = 0) →
        ∀ (i : Nat) (h : i < s.cfg.nReg), g.reg[i].toNat = w i)

/-- R119: two buffers give the same state only if they are equal or are the pair of that rule: register bytes all zero,
register bytes all `0xFF`, same counter bytes. -/
def Obligations.SeedbInjectiveButForOnePair : Prop :=
  ∀ (s : State) (b1 b2 : SeedBuffer s.cfg),
    let m := (s.cfg.R - 1) * (s.cfg.W / 8)
    let pair := fun p q : SeedBuffer s.cfg =>
      (∀ x ∈ p.toList.take m, x = 0x00) ∧ (∀ x ∈ q.toList.take m, x = 0xFF) ∧ p.toList.drop m = q.toList.drop m
    (exec (.seedb (bufferValue b1)) s = exec (.seedb (bufferValue b2)) s ↔ b1 = b2 ∨ pair b1 b2 ∨ pair b2 b1)

/-- R113, R114: SEEDQ on a 32-bit-word variant always completes; the register words are `lo, ~lo, hi, ~hi` cyclically; the
counter is as `QCTR32` says; different seeds give different states when `R ≥ 4`. -/
def Obligations.SeedqExpandsOnNarrowWords : Prop :=
  (∀ (cfg : Config) (din : BitVec cfg.busBits), decode cfg 0x03 din = .ok (.seedq (din.extractLsb' 0 64))) ∧
  (∀ (s : State) (seed : BitVec 64), s.cfg.W = 32 →
    let lo := seed.toNat % 2 ^ 32
    let hi := seed.toNat / 2 ^ 32
    let tbl : Nat → Nat := fun i =>
      if i % 4 = 0 then lo else if i % 4 = 1 then 2 ^ 32 - 1 - lo else if i % 4 = 2 then hi else 2 ^ 32 - 1 - hi
    ∃ g : GenState s.cfg.W s.cfg.nReg,
      exec (.seedq seed) s = .next { s with gen := g, valid := true, rsp := .done } ∧
      (∀ (i : Nat) (h : i < s.cfg.nReg), g.reg[i].toNat = tbl i) ∧
      (s.cfg.qctr32 = .indexed → g.ctr.toNat = tbl (s.cfg.R - 1)) ∧
      (s.cfg.qctr32 = .zero → g.ctr.toNat = 0) ∧
      (s.cfg.qctr32 = .hi → g.ctr.toNat = hi)) ∧
  (∀ (s : State) (seed seed' : BitVec 64), s.cfg.W = 32 → 4 ≤ s.cfg.R →
    exec (.seedq seed) s = exec (.seedq seed') s → seed = seed')

/-- R115: SEEDQ on a 64-bit-word variant always completes; word 0 is the seed or, for seed 0 only, all ones; the second
register word, if present, the seed itself; the counter the complement of the seed as given. -/
def Obligations.SeedqExpandsOnWideWords : Prop :=
  (∀ (cfg : Config) (din : BitVec cfg.busBits), decode cfg 0x03 din = .ok (.seedq (din.extractLsb' 0 64))) ∧
  (∀ (s : State) (seed : BitVec 64), s.cfg.W = 64 →
    ∃ g : GenState s.cfg.W s.cfg.nReg,
      exec (.seedq seed) s = .next { s with gen := g, valid := true, rsp := .done } ∧
      (s.cfg.R = 2 ∨ s.cfg.R = 3) ∧
      (g.reg[0]'s.cfg.nReg_pos).toNat = (if seed.toNat = 0 then 2 ^ 64 - 1 else seed.toNat) ∧
      (∀ (h : 1 < s.cfg.nReg), g.reg[1].toNat = seed.toNat) ∧
      g.ctr.toNat = 2 ^ 64 - 1 - seed.toNat)

/-- R118, R117: a seeding command may be issued at any time, with `valid` 0 or 1, and nothing of the previous words, `valid` or
response survives it. -/
def Obligations.SeedingIgnoresThePreviousState : Prop :=
  ∀ (s : State) (g : GenState s.cfg.W s.cfg.nReg) (v : Bool) (r : Response s.cfg.busBits),
    (∀ din, ∃ g', exec (.seedb din) s = .next { s with gen := g', valid := true, rsp := .done } ∧
      exec (.seedb din) { s with gen := g, valid := v, rsp := r } = exec (.seedb din) s) ∧
    (∀ seed, ∃ g', exec (.seedq seed) s = .next { s with gen := g', valid := true, rsp := .done } ∧
      exec (.seedq seed) { s with gen := g, valid := v, rsp := r } = exec (.seedq seed) s)

/-- R116: after SEEDB or SEEDQ the register words are not all zero, for every operand. -/
def Obligations.SeedingEstablishesNonDegeneracy : Prop :=
  (∀ (s t : State) (din : Nat), exec (.seedb din) s = .next t → ∃ i : Fin t.cfg.nReg, t.gen.reg[i] ≠ 0) ∧
  (∀ (s t : State) (seed : BitVec 64), exec (.seedq seed) s = .next t → ∃ i : Fin t.cfg.nReg, t.gen.reg[i] ≠ 0)

/-! ## Output -/

/-- R130: `COMB` under both operators, and that the order of the operands does not matter. -/
def Obligations.CombineOperators : Prop :=
  ∀ (W : Nat) (u v : Word W),
    (comb .add u v).toNat = (u.toNat + v.toNat) % 2 ^ W ∧
    (∀ i, (comb .xor u v).getLsbD i = (u.getLsbD i ^^ v.getLsbD i)) ∧
    (∀ op, comb op u v = comb op v u ∧ comb op u 0 = u)

/-- R137: `u + v = (u ^ v) + 2·(u & v)`, so the two operators agree exactly when `(u & v) << 1 = 0`, that is when `u & v` is
0 or `2^(W-1)`; the first outputs then coincide; and the states of an ADD and an XOR instance, given the same words and the
same commands, are always equal but for the last response, and so are their refusals, because `OP` is read by no other
rule. -/
def Obligations.OperatorsAgreeExactlyWhen : Prop :=
  (∀ (W : Nat) (u v : Word W), u.toNat + v.toNat = (u ^^^ v).toNat + 2 * (u &&& v).toNat) ∧
  (∀ (W : Nat) (u v : Word W), comb .add u v = comb .xor u v ↔ (u &&& v) <<< 1 = 0) ∧
  (∀ (W : Nat) (u v : Word W), comb .add u v = comb .xor u v ↔
    (u &&& v).toNat = 0 ∨ (u &&& v).toNat = 2 ^ (W - 1)) ∧
  (∀ (cfg : Config) (op : CombineOp),
    (∀ g, clock (cfg.withOp op) g = clock cfg g) ∧
    (∀ buf, seedBytes (cfg.withOp op) buf = seedBytes cfg buf) ∧
    (∀ seed, seedU64 (cfg.withOp op) seed = seedU64 cfg seed)) ∧
  (∀ (cfg : Config) (g : GenState cfg.W cfg.nReg),
    let same := fun u : Word cfg.W => (u &&& g.ctr).toNat = 0 ∨ (u &&& g.ctr).toNat = 2 ^ (cfg.W - 1)
    same (g.reg[0]'cfg.nReg_pos) →
      out32 (cfg.withOp .add) g = out32 (cfg.withOp .xor) g ∧
      ((∀ hW : cfg.W = 32, same (g.reg[1]'(cfg.one_lt_nReg hW))) →
        out64 (cfg.withOp .add) g = out64 (cfg.withOp .xor) g)) ∧
  (∀ (s : State) (op : CombineOp) (cs : List (Byte × BitVec s.cfg.busBits)) (rest : List (PortEvent s.cfg.busBits)),
    s.pending = cs.map (fun p => .command p.1 p.2) ++ rest →
    (∀ t, Host.Core.run core cs.length s = .next t →
      ∃ r : Response t.cfg.busBits, Host.Core.run core cs.length (s.withOp op) = .next (State.withOp { t with rsp := r } op)) ∧
    (∀ q, Host.Core.run core cs.length s = .refused q → Host.Core.run core cs.length (s.withOp op) = .refused q))

/-- R131: NEXT32 completes when seeded: one clock, the newest word combined with the counter after the step, the low 32 bits
of it on `dout[31:0]`, `dout[63:32] = 0`. -/
def Obligations.Next32ClocksThenCombines : Prop :=
  (∀ (cfg : Config) (din : BitVec cfg.busBits), decode cfg 0x04 din = .ok .next32) ∧
  (∀ s : State, s.valid = false → exec .next32 s = .refused .unseeded) ∧
  (∀ s : State, s.valid = true → ∃ v : BitVec 64,
    let g := clock s.cfg s.gen
    let u := g.reg[0]'s.cfg.nReg_pos
    exec .next32 s = .next { s with gen := g, rsp := .dout v } ∧
    v.toNat < 2 ^ 32 ∧
    (s.cfg.op = .add → v.toNat = (u.toNat + g.ctr.toNat) % 2 ^ s.cfg.W % 2 ^ 32) ∧
    (s.cfg.op = .xor → v.toNat = (u ^^^ g.ctr).toNat % 2 ^ 32) ∧
    (s.cfg.op = .add → v.toNat = (u.toNat % 2 ^ 32 + g.ctr.toNat % 2 ^ 32) % 2 ^ 32))

/-- R132: NEXT64 on a 32-bit-word variant completes when seeded: one clock, `high` from `reg[1]` and `low` from `reg[0]`, each
combined with the counter and wrapping at 32 bits on its own; `s'[1]` is the old `reg[0]`; the low half is what NEXT32 would
have returned; and under ADD, after an output with low result `p`, the high half is `(p + K) mod 2^32`. -/
def Obligations.Next64NarrowTwoHalves : Prop :=
  (∀ (cfg : Config) (din : BitVec cfg.busBits), decode cfg 0x05 din = .ok .next64) ∧
  (∀ s : State, s.valid = false → exec .next64 s = .refused .unseeded) ∧
  (∀ (s : State) (hW : s.cfg.W = 32), s.valid = true → ∃ v : BitVec 64,
    let g := clock s.cfg s.gen
    let u0 := g.reg[0]'s.cfg.nReg_pos
    let u1 := g.reg[1]'(s.cfg.one_lt_nReg hW)
    exec .next64 s = .next { s with gen := g, rsp := .dout v } ∧
    exec .next32 s = .next { s with gen := g, rsp := .dout (v.extractLsb' 0 32 |>.setWidth 64) } ∧
    u1 = s.gen.reg[0]'s.cfg.nReg_pos ∧
    (s.cfg.op = .add → v.toNat =
      (u1.toNat + g.ctr.toNat) % 2 ^ 32 * 2 ^ 32 + (u0.toNat + g.ctr.toNat) % 2 ^ 32) ∧
    (s.cfg.op = .xor → v.toNat = (u1 ^^^ g.ctr).toNat * 2 ^ 32 + (u0 ^^^ g.ctr).toNat)) ∧
  (∀ (s t u : State) (i : Instr), i = .next32 ∨ i = .next64 → s.cfg.W = 32 → s.cfg.op = .add → s.valid = true →
    exec i s = .next t → exec .next64 t = .next u →
    ∃ p q : BitVec 64, t.rsp = .dout p ∧ u.rsp = .dout q ∧
      q.toNat / 2 ^ 32 = (p.toNat % 2 ^ 32 + s.cfg.K) % 2 ^ 32)

/-- R133: NEXT64 on a 64-bit-word variant completes when seeded: one clock, the newest word combined with the counter at
64 bits; NEXT32 returns its low 32 bits. -/
def Obligations.Next64WideWholeWord : Prop :=
  (∀ (cfg : Config) (din : BitVec cfg.busBits), decode cfg 0x05 din = .ok .next64) ∧
  (∀ s : State, s.valid = false → exec .next64 s = .refused .unseeded) ∧
  (∀ s : State, s.cfg.W = 64 → s.valid = true → ∃ v : BitVec 64,
    let g := clock s.cfg s.gen
    let u := g.reg[0]'s.cfg.nReg_pos
    exec .next64 s = .next { s with gen := g, rsp := .dout v } ∧
    exec .next32 s = .next { s with gen := g, rsp := .dout (v.extractLsb' 0 32 |>.setWidth 64) } ∧
    (s.cfg.op = .add → v.toNat = (u.toNat + g.ctr.toNat) % 2 ^ 64) ∧
    (s.cfg.op = .xor → v.toNat = (u ^^^ g.ctr).toNat))

/-- R134: NEXT32 and NEXT64 each perform exactly the clock step of CLOCK, on every configuration, and the NEXT32 result is the
low half of the NEXT64 result. -/
def Obligations.OneClockPerOutput : Prop :=
  ∀ s : State, s.valid = true → ∃ v w : BitVec 64,
    let g := clock s.cfg s.gen
    exec .clock s = .next { s with gen := g, rsp := .done } ∧
    exec .next32 s = .next { s with gen := g, rsp := .dout v } ∧
    exec .next64 s = .next { s with gen := g, rsp := .dout w } ∧
    v.toNat = w.toNat % 2 ^ 32

/-- R45, R135: no command returns an output word without advancing the state: only NEXT32 and NEXT64 return one, and they and
CLOCK always change the words. -/
def Obligations.NoPeekWithoutAdvancing : Prop :=
  (∀ (s t : State) (i : Instr) (v : BitVec 64), exec i s = .next t → t.rsp = .dout v → i = .next32 ∨ i = .next64) ∧
  (∀ (s t : State) (i : Instr), i = .clock ∨ i = .next32 ∨ i = .next64 → exec i s = .next t →
    ∃ (g : GenState s.cfg.W s.cfg.nReg) (r : Response s.cfg.busBits), t = { s with gen := g, rsp := r } ∧ g ≠ s.gen)

/-- R136: after any mix of CLOCK, NEXT32, NEXT64 and DUMP on a seeded instance, the words are the old ones clocked once for each
command that is not DUMP. -/
def Obligations.MixedCommandsClockOnceEach : Prop :=
  ∀ (s : State) (cs : List (Byte × BitVec s.cfg.busBits)) (rest : List (PortEvent s.cfg.busBits)),
    s.valid = true → (∀ p ∈ cs, p.1 = 0x01 ∨ p.1 = 0x04 ∨ p.1 = 0x05 ∨ p.1 = 0x06) →
    s.pending = cs.map (fun p => .command p.1 p.2) ++ rest →
    ∃ r, Host.Core.run core cs.length s = .next
      { s with
        gen := (clock s.cfg)^[(cs.filter (fun p => p.1 ≠ 0x06)).length] s.gen
        rsp := r
        pending := rest }

/-! ## DUMP and restore -/

/-- R150: DUMP completes when seeded, changes no word, and puts word `i` at `sout[W·i+W-1 : W·i]`. -/
def Obligations.DumpReturnsTheWords : Prop :=
  (∀ (cfg : Config) (din : BitVec cfg.busBits), decode cfg 0x06 din = .ok .dump) ∧
  (∀ s : State, s.valid = false → exec .dump s = .refused .unseeded) ∧
  (∀ s : State, s.valid = true → ∃ v : BitVec s.cfg.busBits,
    exec .dump s = .next { s with rsp := .sout v } ∧
    (∀ (i : Nat) (h : i < s.cfg.R - 1), v.extractLsb' (s.cfg.W * i) s.cfg.W = s.gen.reg[i]'h) ∧
    v.extractLsb' (s.cfg.W * (s.cfg.R - 1)) s.cfg.W = s.gen.ctr)

/-- R45: repeating DUMP, SEEDB or SEEDQ with the same operand gives the same state and the same response. -/
def Obligations.DumpAndSeedingAreIdempotent : Prop :=
  ∀ (s t : State) (i : Instr), (i = .dump ∨ (∃ din, i = .seedb din) ∨ ∃ seed, i = .seedq seed) →
    exec i s = .next t → exec i t = .next t

/-- R151: SEEDB of a DUMP's `sout`, on any instance of the same configuration (seeded or not, whatever its words), gives exactly
the dumped words, and from then on every output is the original's. -/
def Obligations.SeedbOfDumpRestoresTheState : Prop :=
  ∀ s : State, s.valid = true → s.NonDegenerate → ∃ v : BitVec s.cfg.busBits,
    exec .dump s = .next { s with rsp := .sout v } ∧
    ∀ (g : GenState s.cfg.W s.cfg.nReg) (b : Bool) (r : Response s.cfg.busBits) (rest : List (PortEvent s.cfg.busBits)),
      step { s with gen := g, valid := b, rsp := r, pending := .command 0x02 v :: rest } =
        .next { s with rsp := .done, pending := rest } ∧
      (rest ≠ [] → ∀ k,
        Host.Core.run core (k + 2) { s with gen := g, valid := b, rsp := r, pending := .command 0x02 v :: rest } =
          Host.Core.run core (k + 1) { s with pending := rest })

/-! ## The whole machine -/

/-- R22: every step keeps invariant I1. -/
def Obligations.StepKeepsNonDegeneracy : Prop :=
  ∀ s t : State, s.NonDegenerate → step s = .next t → t.NonDegenerate

/-- Invariant I1 holds of the reset state of every configuration, with any host. -/
def Obligations.ResetIsNonDegenerate : Prop :=
  State.reset.NonDegenerate ∧
  ∀ (cfg : Config) (p : List (PortEvent cfg.busBits)), (State.afterReset cfg p).NonDegenerate

/-- R91, R24: who writes what. CLOCK, NEXT32 and NEXT64 clock the words exactly once, DUMP leaves them, only SEEDB and SEEDQ
replace them and set `valid`, and no command touches the configuration or what the host has still to present. -/
def Obligations.CommandsWriteOnlyTheirOwnState : Prop :=
  ∀ (i : Instr) (s t : State), exec i s = .next t →
    ∃ (g : GenState s.cfg.W s.cfg.nReg) (v : Bool) (r : Response s.cfg.busBits),
      t = { s with gen := g, valid := v, rsp := r } ∧
      (i = .clock ∨ i = .next32 ∨ i = .next64 → g = clock s.cfg s.gen ∧ v = s.valid) ∧
      (i = .dump → g = s.gen ∧ v = s.valid) ∧
      (∀ din, i = .seedb din → g = seedBytes s.cfg (seedOperand s.cfg din) ∧ v = true) ∧
      (∀ seed, i = .seedq seed → g = seedU64 s.cfg seed ∧ v = true)

/-- R35: two instances of one configuration with equal words and the same commands to come give the same outputs and the same
final state (the last response is the only other thing a state holds). -/
def Obligations.EqualStatesHaveEqualFutures : Prop :=
  ∀ (k : Nat) (s : State) (r : Response s.cfg.busBits), s.pending ≠ [] →
    Host.Core.run core (k + 1) { s with rsp := r } = Host.Core.run core (k + 1) s

/-- R32, R171: the words of an unseeded instance can never be seen: whatever they are, the host sees the same run. -/
def Obligations.UnseededWordsAreUnobservable : Prop :=
  ∀ (k : Nat) (s : State) (g : GenState s.cfg.W s.cfg.nReg), s.valid = false →
    outcomeView (Host.Core.run core k { s with gen := g }) = outcomeView (Host.Core.run core k s)

/-- R192, R199: a host that seeds first after every reset and issues no reserved byte is never refused, for ever; one that breaks
this is refused by the end of its list. "For ever" counts the steps past the end of the list, which change nothing by the
model's reading (log 5). -/
def Obligations.BootRuleIsExactlySafety : Prop :=
  ∀ s : State,
    (keepsBootRule s.valid s.pending = true → ∀ k, ∃ t, Host.Core.run core k s = .next t) ∧
    (keepsBootRule s.valid s.pending = false → ∃ r, Host.Core.run core s.pending.length s = .refused r)

/-! ## The assembler -/

/-- R68: what each pseudo-instruction expands to. -/
def Obligations.PseudoInstructionsExpand : Prop :=
  ∀ cfg : Config,
    (∀ n c i, c.instr? cfg = some i → assembleLine cfg (.rep n c) = some (List.replicate n (commandEvent cfg i))) ∧
    (∀ n, assembleLine cfg (.skip n) = assembleLine cfg (.rep n .clock)) ∧
    assembleLine cfg .nextU32 = assembleLine cfg (.command .next32) ∧
    assembleLine cfg .nextU64 = assembleLine cfg (.command .next64) ∧
    (∀ x, assembleLine cfg (.seedFromU64 x) = assembleLine cfg (.command (.seedq x))) ∧
    (∀ bytes, assembleLine cfg (.seedFromBytes bytes) = assembleLine cfg (.command (.seedb bytes))) ∧
    assembleLine cfg .dumpState = assembleLine cfg (.command .dump) ∧
    (∀ b, assembleLine cfg (.byte b) = some [.command b 0])

/-- R67: a line's command assembles to the pair whose step runs it; a SEEDB line assembles exactly when it has `R·W/8` bytes,
and `din` is then their little-endian value. -/
def Obligations.AssembledCommandRuns : Prop :=
  (∀ (s : State) (c : AsmCommand) (i : Instr) (e : PortEvent s.cfg.busBits) (rest : List (PortEvent s.cfg.busBits)),
    c.instr? s.cfg = some i → assembleLine s.cfg (.command c) = some [e] → s.pending = e :: rest →
    step s = exec i { s with pending := rest }) ∧
  (∀ (cfg : Config) (c : AsmCommand) (i : Instr), c.instr? cfg = some i →
    assembleLine cfg (.command c) = some [commandEvent cfg i]) ∧
  (∀ (cfg : Config) (bytes : List Byte),
    ((AsmCommand.seedb bytes).instr? cfg = none ↔ bytes.length ≠ cfg.R * cfg.W / 8) ∧
    (bytes.length = cfg.R * cfg.W / 8 → assembleLine cfg (.command (.seedb bytes)) =
      some [.command 0x02 (BitVec.ofNat cfg.busBits (leNat bytes))]))
end

