-- ==== Sys2Proof/Laws/Decode.lean ====
section
/-! SUPPORT. Spec lemmas of the decoder, the encoder and the byte and word layouts. -/

namespace Sys2Proof

/-- The opcode map read off a byte: which of the six commands it spells, or none. -/
theorem decodeOp_eq (cmd : Byte) :
    decodeOp cmd =
      if cmd.toNat = 1 then some .clock else if cmd.toNat = 2 then some .seedb
      else if cmd.toNat = 3 then some .seedq else if cmd.toNat = 4 then some .next32
      else if cmd.toNat = 5 then some .next64 else if cmd.toNat = 6 then some .dump else none := by
  revert cmd
  decide

/-- An operation's own byte decodes to it. -/
theorem decodeOp_byte (op : Op) : decodeOp op.byte = some op := by
  cases op <;> decide

/-- Decoding an operation's own byte. -/
theorem decode_byte (cfg : Config) (op : Op) (din : BitVec cfg.busBits) :
    decode cfg op.byte din = .ok (op.withOperand cfg din) := by
  simp [decode, decodeOp_byte]

/-- The six bytes of the opcode map (30_encoding.md R61). -/
theorem op_bytes : Op.clock.byte = 0x01 ∧ Op.seedb.byte = 0x02 ∧ Op.seedq.byte = 0x03 ∧ Op.next32.byte = 0x04 ∧
    Op.next64.byte = 0x05 ∧ Op.dump.byte = 0x06 := by
  decide

/-- A byte that spells an operation is that operation's byte. -/
theorem byte_of_decodeOp {cmd : Byte} {op : Op} (h : decodeOp cmd = some op) : op.byte = cmd := by
  revert cmd
  cases op <;> decide

/-- What the decoder can answer: the operation of the byte with its operand, or the rejection. -/
theorem decode_eq_ok_iff {cfg : Config} {cmd : Byte} {din : BitVec cfg.busBits} {i : Instr} :
    decode cfg cmd din = .ok i ↔ ∃ op, decodeOp cmd = some op ∧ op.withOperand cfg din = i := by
  unfold decode
  cases decodeOp cmd <;> simp

theorem decode_eq_error_iff {cfg : Config} {cmd : Byte} {din : BitVec cfg.busBits} {e : DecodeReject} :
    decode cfg cmd din = .error e ↔ decodeOp cmd = none := by
  unfold decode
  cases e
  cases decodeOp cmd <;> simp

@[simp] theorem withOperand_op (cfg : Config) (din : BitVec cfg.busBits) (op : Op) :
    (op.withOperand cfg din).op = op := by
  cases op <;> rfl

/-! Little-endian values. -/

@[simp] theorem leNat_nil : leNat [] = 0 := rfl

@[simp] theorem leNat_cons (b : Byte) (bs : List Byte) : leNat (b :: bs) = b.toNat + 256 * leNat bs := rfl

theorem leNat_append (xs ys : List Byte) : leNat (xs ++ ys) = leNat xs + 256 ^ xs.length * leNat ys := by
  induction xs with
  | nil => simp
  | cons b bs ih => simp [ih, pow_succ]; ring

theorem leNat_lt (xs : List Byte) : leNat xs < 256 ^ xs.length := by
  induction xs with
  | nil => simp
  | cons b bs ih =>
    have := b.isLt
    simp only [leNat_cons, List.length_cons, pow_succ]
    omega

/-- The value of the first `n` bytes and of the rest. -/
theorem leNat_take (n : Nat) (xs : List Byte) : leNat (xs.take n) = leNat xs % 256 ^ n := by
  induction n generalizing xs with
  | zero => simp [Nat.mod_one]
  | succ n ih =>
    cases xs with
    | nil => simp
    | cons b bs =>
      have hb := b.isLt
      simp only [List.take_succ_cons, leNat_cons, ih, pow_succ]
      rw [mul_comm (256 ^ n) 256, Nat.mod_mul, Nat.add_mul_mod_self_left, Nat.mod_eq_of_lt hb,
        Nat.add_mul_div_left _ _ (by omega), Nat.div_eq_of_lt hb, zero_add]

theorem leNat_drop (n : Nat) (xs : List Byte) : leNat (xs.drop n) = leNat xs / 256 ^ n := by
  induction n generalizing xs with
  | zero => simp
  | succ n ih =>
    cases xs with
    | nil => simp
    | cons b bs =>
      have hb := b.isLt
      simp only [List.drop_succ_cons, leNat_cons, ih, pow_succ]
      rw [mul_comm (256 ^ n) 256, ← Nat.div_div_eq_div_mul, Nat.add_mul_div_left _ _ (by omega),
        Nat.div_eq_of_lt hb, zero_add]

/-- Equal lengths and equal little-endian values make equal buffers. -/
theorem leNat_injective {xs ys : List Byte} (hl : xs.length = ys.length) (h : leNat xs = leNat ys) : xs = ys := by
  induction xs generalizing ys with
  | nil => cases ys <;> simp_all
  | cons b bs ih =>
    cases ys with
    | nil => simp at hl
    | cons c cs =>
      have hb := b.isLt
      have hc := c.isLt
      simp only [leNat_cons] at h
      have h1 : b.toNat = c.toNat := by omega
      have h2 : leNat bs = leNat cs := by omega
      rw [BitVec.eq_of_toNat_eq h1, ih (by simpa using hl) h2]

/-- A whole number of bytes makes up every word and the bus. -/
theorem Config.eight_dvd (c : Config) : c.W = 8 * c.wordBytes := by
  show c.W = 8 * (c.W / 8)
  rcases c.spec.1 with h | h <;> omega

theorem Config.busBits_eq (c : Config) : c.busBits = 8 * c.busBytes := by
  have h : 8 ∣ c.W := ⟨_, c.eight_dvd⟩
  show c.R * c.W = 8 * (c.R * c.W / 8)
  exact (Nat.mul_div_cancel' (Dvd.dvd.mul_left h c.R)).symm

theorem Config.busBytes_eq (c : Config) : c.busBytes = c.R * c.wordBytes := by
  have h1 := c.busBits_eq
  have h2 := c.eight_dvd
  have : 8 * c.busBytes = 8 * (c.R * c.wordBytes) := by
    rw [← h1]
    show c.R * c.W = _
    rw [h2]
    simp only [Config.wordBytes]
    ring_nf
  omega

theorem Config.pow_busBytes (c : Config) : 256 ^ c.busBytes = 2 ^ c.busBits := by
  rw [c.busBits_eq, pow_mul]
  norm_num

@[simp] theorem busToBytes_getElem (cfg : Config) (din : BitVec cfg.busBits) (j : Nat) (h : j < cfg.busBytes) :
    (busToBytes cfg din)[j] = din.extractLsb' (8 * j) 8 := by
  simp [busToBytes]

/-- The first `n` bytes of a bus are its value, up to their number. -/
theorem leNat_bytes {b : Nat} (din : BitVec b) (n : Nat) :
    leNat ((List.range n).map fun j => din.extractLsb' (8 * j) 8) = din.toNat % 256 ^ n := by
  induction n with
  | zero => simp [Nat.mod_one]
  | succ n ih =>
    rw [List.range_succ, List.map_append, leNat_append, ih, List.length_map, List.length_range, pow_succ, Nat.mod_mul]
    simp [BitVec.extractLsb'_toNat, Nat.shiftRight_eq_div_pow, pow_mul]

/-- A bus presents the buffer whose value it carries (20_memory.md R42). -/
theorem bufferValue_busToBytes (cfg : Config) (din : BitVec cfg.busBits) : bufferValue (busToBytes cfg din) = din.toNat := by
  have hl : (busToBytes cfg din).toList = (List.range cfg.busBytes).map fun j => din.extractLsb' (8 * j) 8 :=
    List.ext_getElem (by simp) (by simp)
  rw [bufferValue, hl, leNat_bytes, cfg.pow_busBytes]
  exact Nat.mod_eq_of_lt din.isLt

theorem bufferValue_lt {cfg : Config} (buf : SeedBuffer cfg) : bufferValue buf < 2 ^ cfg.busBits := by
  have h := leNat_lt buf.toList
  rwa [Vector.length_toList, cfg.pow_busBytes] at h

/-- Buffers are told apart by their values. -/
theorem bufferValue_injective {cfg : Config} {b1 b2 : SeedBuffer cfg} (h : bufferValue b1 = bufferValue b2) : b1 = b2 :=
  Vector.toList_inj.1 (leNat_injective (by simp) h)

end Sys2Proof

namespace Sys2Proof.Machine

@[simp] theorem bufferValue_seedOperand (cfg : Config) (din : Nat) :
    bufferValue (seedOperand cfg din) = din % 2 ^ cfg.busBits := by
  rw [seedOperand, bufferValue_busToBytes, BitVec.toNat_ofNat]

/-- Presenting a buffer's value gives the buffer back (R42, R43). -/
@[simp] theorem seedOperand_bufferValue {cfg : Config} (buf : SeedBuffer cfg) : seedOperand cfg (bufferValue buf) = buf :=
  bufferValue_injective (by rw [bufferValue_seedOperand, Nat.mod_eq_of_lt (bufferValue_lt buf)])

/-- A buffer's word `i` is the `i`-th `W`-bit digit of its value (20_memory.md R42). -/
theorem bufferWord_toNat (cfg : Config) (buf : SeedBuffer cfg) (i : Nat) :
    (bufferWord cfg buf i).toNat = bufferValue buf / 2 ^ (cfg.W * i) % 2 ^ cfg.W := by
  have h256 : ∀ n, 256 ^ n = 2 ^ (8 * n) := fun n => by rw [pow_mul]; norm_num
  have hW := cfg.eight_dvd
  simp only [bufferWord, bufferValue, BitVec.toNat_ofNat, leNat_take, leNat_drop, h256]
  rw [← hW, Nat.mod_mod, show 8 * (i * cfg.wordBytes) = cfg.W * i by rw [hW]; simp only [Config.wordBytes]; ring_nf]

/-! `sout`. -/

@[simp] theorem wordsNat_nil {W : Nat} : wordsNat ([] : List (Word W)) = 0 := rfl

@[simp] theorem wordsNat_cons {W : Nat} (w : Word W) (ws : List (Word W)) :
    wordsNat (w :: ws) = w.toNat + 2 ^ W * wordsNat ws := rfl

theorem wordsNat_lt {W : Nat} (ws : List (Word W)) : wordsNat ws < 2 ^ (W * ws.length) := by
  induction ws with
  | nil => simp
  | cons w ws ih =>
    have hw := w.isLt
    have : 2 ^ (W * (ws.length + 1)) = 2 ^ W * 2 ^ (W * ws.length) := by rw [← pow_add]; ring_nf
    simp only [wordsNat_cons, List.length_cons, this]
    calc w.toNat + 2 ^ W * wordsNat ws < 2 ^ W + 2 ^ W * wordsNat ws := by omega
      _ = 2 ^ W * (wordsNat ws + 1) := by ring
      _ ≤ 2 ^ W * 2 ^ (W * ws.length) := Nat.mul_le_mul_left _ ih

/-- The `i`-th digit is the `i`-th word. -/
theorem wordsNat_digit {W : Nat} (ws : List (Word W)) (i : Nat) (h : i < ws.length) :
    wordsNat ws / 2 ^ (W * i) % 2 ^ W = ws[i].toNat := by
  induction ws generalizing i with
  | nil => simp at h
  | cons w ws ih =>
    have hw := w.isLt
    cases i with
    | zero => simp [Nat.mod_eq_of_lt hw]
    | succ i =>
      have : 2 ^ (W * (i + 1)) = 2 ^ W * 2 ^ (W * i) := by rw [← pow_add]; ring_nf
      rw [wordsNat_cons, this, ← Nat.div_div_eq_div_mul, Nat.add_mul_div_left _ _ (by positivity),
        Nat.div_eq_of_lt hw, zero_add]
      simpa using ih i (by simpa using h)

@[simp] theorem words_length {W n : Nat} (g : GenState W n) : g.words.length = n + 1 := by
  simp [GenState.words]

/-- The words of the sequence: register words, then the counter (10_state.md R21). -/
theorem words_getElem? {W n : Nat} (g : GenState W n) (i : Nat) :
    g.words[i]? = if h : i < n then some g.reg[i] else if i = n then some g.ctr else none := by
  show (g.reg.toList ++ [g.ctr])[i]? = _
  rcases lt_trichotomy i n with h | rfl | h
  · simp [h, List.getElem?_append]
  · simp
  · rw [dif_neg (by omega), if_neg (by omega)]
    exact List.getElem?_eq_none (by rw [List.length_append, Vector.length_toList, List.length_singleton]; omega)

/-- `sout` holds the whole value of the words. -/
theorem soutOf_toNat (cfg : Config) (g : GenState cfg.W cfg.nReg) :
    (soutOf cfg g).toNat = wordsNat g.words := by
  have h := wordsNat_lt g.words
  have hR := cfg.spec.2.1
  rw [words_length, show cfg.nReg + 1 = cfg.R by show cfg.R - 1 + 1 = cfg.R; omega, mul_comm] at h
  exact Nat.mod_eq_of_lt h

end Sys2Proof.Machine
end

