-- ==== Sys2Proof/Laws/State.lean ====
section
/-! SUPPORT. Field lemmas of the states the model builds by name. Every other update of the state is written as a record
update, whose fields simp reads off by itself (the fields depend on `cfg`, which no update changes). -/

namespace Sys2Proof.Machine

variable (s : State)

@[simp] theorem resetInstance_cfg : (resetInstance s).cfg = s.cfg := rfl
@[simp] theorem resetInstance_valid : (resetInstance s).valid = false := rfl
@[simp] theorem resetInstance_gen : (resetInstance s).gen = .unseeded s.cfg.W s.cfg.nReg := rfl
@[simp] theorem resetInstance_rsp : (resetInstance s).rsp = .noResponse := rfl
@[simp] theorem resetInstance_pending : (resetInstance s).pending = s.pending := rfl

@[simp] theorem withOp_cfg (op : CombineOp) : (s.withOp op).cfg = s.cfg.withOp op := rfl
@[simp] theorem withOp_valid (op : CombineOp) : (s.withOp op).valid = s.valid := rfl
@[simp] theorem withOp_gen (op : CombineOp) : (s.withOp op).gen = s.gen := rfl
@[simp] theorem withOp_rsp (op : CombineOp) : (s.withOp op).rsp = s.rsp := rfl
@[simp] theorem withOp_pending (op : CombineOp) : (s.withOp op).pending = s.pending := rfl

variable (cfg : Config) (p : List (PortEvent cfg.busBits))

@[simp] theorem afterReset_cfg : (State.afterReset cfg p).cfg = cfg := rfl
@[simp] theorem afterReset_valid : (State.afterReset cfg p).valid = false := rfl
@[simp] theorem afterReset_gen : (State.afterReset cfg p).gen = .unseeded cfg.W cfg.nReg := rfl
@[simp] theorem afterReset_rsp : (State.afterReset cfg p).rsp = .noResponse := rfl
@[simp] theorem afterReset_pending : (State.afterReset cfg p).pending = p := rfl

end Sys2Proof.Machine
end

