-- ==== Sys2Proof/Laws/Ops.lean ====
section
/-! SUPPORT. One spec lemma for each named function of the machine. -/

namespace Sys2Proof.Machine

/-- All a guarded command can answer: its own outcome when seeded, the refusal of R171 when not. -/
theorem whenSeeded_cases (s : State) (k : Result) :
    (s.valid = true ∧ whenSeeded s k = k) ∨ (s.valid = false ∧ whenSeeded s k = .refused .unseeded) := by
  cases h : s.valid <;> simp [whenSeeded, h]

@[simp] theorem whenSeeded_of_valid {s : State} (h : s.valid = true) (k : Result) : whenSeeded s k = k := by
  simp [whenSeeded, h]

@[simp] theorem whenSeeded_of_not_valid {s : State} (h : s.valid = false) (k : Result) :
    whenSeeded s k = .refused .unseeded := by
  simp [whenSeeded, h]

theorem whenSeeded_next_iff {s t u : State} :
    whenSeeded s (.next u) = .next t ↔ s.valid = true ∧ t = u := by
  rcases whenSeeded_cases s (.next u) with ⟨hv, h⟩ | ⟨hv, h⟩ <;> simp [hv, eq_comm]

theorem whenSeeded_refused_iff {s u : State} {r : Refusal} :
    whenSeeded s (.next u) = .refused r ↔ s.valid = false ∧ r = .unseeded := by
  rcases whenSeeded_cases s (.next u) with ⟨hv, h⟩ | ⟨hv, h⟩ <;> simp [hv, eq_comm]

/-! The register engine. -/

theorem newest_eq (cfg : Config) (reg : Vector (Word cfg.W) cfg.nReg) : newest cfg reg = reg[0]'cfg.nReg_pos := rfl

@[simp] theorem srStep_zero (cfg : Config) (reg : Vector (Word cfg.W) cfg.nReg) (h : 0 < cfg.nReg) :
    (srStep cfg reg)[0] = nextWord cfg reg := by
  simp [srStep]

@[simp] theorem srStep_succ (cfg : Config) (reg : Vector (Word cfg.W) cfg.nReg) (i : Nat) (h : i + 1 < cfg.nReg) :
    (srStep cfg reg)[i + 1] = reg[i] := by
  simp [srStep]

theorem nextWord_of_window {cfg : Config} (h : 3 ≤ cfg.R) (reg : Vector (Word cfg.W) cfg.nReg) :
    nextWord cfg reg = xform cfg.a cfg.b cfg.c (oldest cfg reg) (newest cfg reg) := by
  rw [nextWord, if_neg (by omega)]

theorem nextWord_of_one_word {cfg : Config} (h : cfg.R = 2) (reg : Vector (Word cfg.W) cfg.nReg) :
    nextWord cfg reg = xform1 cfg (newest cfg reg) := by
  rw [nextWord, if_pos h]

@[simp] theorem clock_reg (cfg : Config) (g : GenState cfg.W cfg.nReg) : (clock cfg g).reg = srStep cfg g.reg := rfl

@[simp] theorem clock_ctr (cfg : Config) (g : GenState cfg.W cfg.nReg) : (clock cfg g).ctr = weylStep cfg g.ctr := rfl

theorem weylStep_toNat (cfg : Config) (ctr : Word cfg.W) :
    (weylStep cfg ctr).toNat = (ctr.toNat + cfg.K) % 2 ^ cfg.W := by
  simp [weylStep]

/-- The two stages never meet inside a clock step (41_weyl_counter_stage.md R102). -/
theorem clock_iterate (cfg : Config) (t : Nat) (g : GenState cfg.W cfg.nReg) :
    (clock cfg)^[t] g = ⟨(srStep cfg)^[t] g.reg, (weylStep cfg)^[t] g.ctr⟩ := by
  induction t generalizing g with
  | zero => rfl
  | succ t ih => simp [Function.iterate_succ_apply, ih]

/-! Seeding. -/

theorem maxWord_ne_zero (cfg : Config) : maxWord cfg.W ≠ 0 := by
  have : 0 < cfg.W := by rcases cfg.spec.1 with h | h <;> omega
  intro h
  have h' := congrArg BitVec.toNat h
  have : 2 ^ 1 ≤ 2 ^ cfg.W := Nat.pow_le_pow_right (by omega) this
  simp [maxWord] at h'
  omega

/-- All the zero escape can do (42_prng_seeding_logic.md R112). -/
theorem zeroEscape_cases {W n : Nat} (reg : Vector (Word W) n) :
    ((∀ i : Fin n, reg[i] = 0) ∧ zeroEscape reg = Vector.ofFn fun _ => maxWord W) ∨
    ((∃ i : Fin n, reg[i] ≠ 0) ∧ zeroEscape reg = reg) := by
  by_cases h : ∀ i : Fin n, reg[i] = 0
  · exact .inl ⟨h, if_pos h⟩
  · exact .inr ⟨by simpa using h, if_neg h⟩

/-- The zero escape leaves some word non-zero (R116). -/
theorem zeroEscape_ne_zero (cfg : Config) (reg : Vector (Word cfg.W) cfg.nReg) :
    ∃ i : Fin cfg.nReg, (zeroEscape reg)[i] ≠ 0 := by
  rcases zeroEscape_cases reg with ⟨_, h⟩ | ⟨h, h'⟩
  · exact ⟨⟨0, cfg.nReg_pos⟩, by simpa [h] using maxWord_ne_zero cfg⟩
  · rwa [h']

@[simp] theorem seedBytes_ctr (cfg : Config) (buf : SeedBuffer cfg) :
    (seedBytes cfg buf).ctr = bufferWord cfg buf cfg.nReg := rfl

@[simp] theorem seedBytes_reg (cfg : Config) (buf : SeedBuffer cfg) :
    (seedBytes cfg buf).reg = zeroEscape (Vector.ofFn fun i => bufferWord cfg buf i) := rfl

theorem seedU64_of_narrow {cfg : Config} (h : cfg.W = 32) (seed : BitVec 64) :
    seedU64 cfg seed = seedU64Narrow cfg seed := if_pos h

theorem seedU64_of_wide {cfg : Config} (h : cfg.W = 64) (seed : BitVec 64) :
    seedU64 cfg seed = seedU64Wide cfg seed := if_neg (by omega)

/-! Output and observation. -/

theorem out32_toNat (cfg : Config) (g : GenState cfg.W cfg.nReg) :
    (out32 cfg g).toNat = (comb cfg.op (newest cfg g.reg) g.ctr).toNat % 2 ^ 32 := by
  simp [out32, doutOf32]
  omega

/-- The two halves of NEXT64 on 32-bit words, with no carry between them (43_prng_output_combiner.md R132). -/
theorem out64_of_narrow (cfg : Config) (g : GenState cfg.W cfg.nReg) (h : cfg.W = 32) :
    (out64 cfg g).toNat = (comb cfg.op (g.reg[1]'(cfg.one_lt_nReg h)) g.ctr).toNat * 2 ^ 32 +
      (comb cfg.op (newest cfg g.reg) g.ctr).toNat := by
  have a := (comb cfg.op (g.reg[1]'(cfg.one_lt_nReg h)) g.ctr).isLt
  have b := (comb cfg.op (newest cfg g.reg) g.ctr).isLt
  rw [show (2 : Nat) ^ cfg.W = 2 ^ 32 by rw [h]] at a b
  simp only [out64, h, dite_true]
  rw [BitVec.toNat_append, BitVec.toNat_setWidth, BitVec.toNat_setWidth, Nat.mod_eq_of_lt a, Nat.mod_eq_of_lt b,
    ← Nat.shiftLeft_add_eq_or_of_lt b, Nat.shiftLeft_eq]

theorem out64_of_wide (cfg : Config) (g : GenState cfg.W cfg.nReg) (h : cfg.W = 64) :
    (out64 cfg g).toNat = (comb cfg.op (newest cfg g.reg) g.ctr).toNat := by
  have b := (comb cfg.op (newest cfg g.reg) g.ctr).isLt
  rw [show (2 : Nat) ^ cfg.W = 2 ^ 64 by rw [h]] at b
  simp only [out64, show ¬cfg.W = 32 by omega, dite_false]
  rw [BitVec.toNat_setWidth, Nat.mod_eq_of_lt b]

/-- Word `i` of the sequence at `sout[W·i+W-1 : W·i]` (44_state_observation_and_facade.md R150). -/
theorem soutOf_word (cfg : Config) (g : GenState cfg.W cfg.nReg) (i : Nat) (h : i < g.words.length) :
    (soutOf cfg g).extractLsb' (cfg.W * i) cfg.W = g.words[i] := by
  apply BitVec.eq_of_toNat_eq
  rw [BitVec.extractLsb'_toNat, Nat.shiftRight_eq_div_pow, soutOf_toNat, wordsNat_digit _ i h]

end Sys2Proof.Machine
end

