-- ==== Sys2Proof/Laws/PerInstr.lean ====
section
/-! SUPPORT. Statements for all commands, proved command by command. -/

namespace Sys2Proof.Laws.CommandByte

/-- The encoder's command byte is the pattern of a row of the opcode map, and that row spells this command's operation
(30_encoding.md R61). -/
def Statement (i : Instr) : Prop :=
  ∀ cfg : Config, ∃ r ∈ opcodeTable, r.op = i.op ∧ r.accepts (encode cfg i).1 = true ∧ (encode cfg i).1 = r.pattern

/-- The byte does not depend on the configuration or the operand. -/
theorem of_row {i : Instr} {r : OpRow} (hr : r ∈ opcodeTable) (ho : r.op = i.op) (hb : i.op.byte = r.pattern)
    (ha : r.accepts r.pattern = true) : Statement i :=
  fun _ => ⟨r, hr, ho, (congrArg r.accepts hb).trans ha, hb⟩

theorem clock : Statement .clock := of_row (r := ⟨0x01, 0xFF, .clock⟩) (by decide) rfl (by decide) (by decide)
theorem seedb (din : Nat) : Statement (.seedb din) :=
  of_row (r := ⟨0x02, 0xFF, .seedb⟩) (by decide) rfl (by decide : Op.seedb.byte = 0x02) (by decide)
theorem seedq (seed : BitVec 64) : Statement (.seedq seed) :=
  of_row (r := ⟨0x03, 0xFF, .seedq⟩) (by decide) rfl (by decide : Op.seedq.byte = 0x03) (by decide)
theorem next32 : Statement .next32 := of_row (r := ⟨0x04, 0xFF, .next32⟩) (by decide) rfl (by decide) (by decide)
theorem next64 : Statement .next64 := of_row (r := ⟨0x05, 0xFF, .next64⟩) (by decide) rfl (by decide) (by decide)
theorem dump : Statement .dump := of_row (r := ⟨0x06, 0xFF, .dump⟩) (by decide) rfl (by decide) (by decide)

end Sys2Proof.Laws.CommandByte
end

