-- ==== Sys2Proof/Laws/Step.lean ====
section
/-! SUPPORT. What a command and a step can do, said once: later proofs cite these and unfold no meaning. -/

namespace Sys2Proof.Machine

theorem exec_seedb (din : Nat) (s : State) :
    exec (.seedb din) s = .next { s with gen := seedBytes s.cfg (seedOperand s.cfg din), valid := true, rsp := .done } := rfl

theorem exec_seedq (seed : BitVec 64) (s : State) :
    exec (.seedq seed) s = .next { s with gen := seedU64 s.cfg seed, valid := true, rsp := .done } := rfl

/-- Every meaning that answers a next state: which command it was, and that state. -/
theorem exec_next_cases {i : Instr} {s t : State} (h : exec i s = .next t) :
    (i = .clock ∧ s.valid = true ∧ t = { s with gen := clock s.cfg s.gen, rsp := .done }) ∨
    (∃ din, i = .seedb din ∧
      t = { s with gen := seedBytes s.cfg (seedOperand s.cfg din), valid := true, rsp := .done }) ∨
    (∃ seed, i = .seedq seed ∧ t = { s with gen := seedU64 s.cfg seed, valid := true, rsp := .done }) ∨
    (i = .next32 ∧ s.valid = true ∧
      t = { s with gen := clock s.cfg s.gen, rsp := .dout (out32 s.cfg (clock s.cfg s.gen)) }) ∨
    (i = .next64 ∧ s.valid = true ∧
      t = { s with gen := clock s.cfg s.gen, rsp := .dout (out64 s.cfg (clock s.cfg s.gen)) }) ∨
    (i = .dump ∧ s.valid = true ∧ t = { s with rsp := .sout (soutOf s.cfg s.gen) }) := by
  cases i with
  | clock => exact .inl ⟨rfl, whenSeeded_next_iff.1 h⟩
  | seedb din =>
    rw [exec_seedb, Host.Outcome.next.injEq] at h
    exact .inr (.inl ⟨din, rfl, h.symm⟩)
  | seedq seed =>
    rw [exec_seedq, Host.Outcome.next.injEq] at h
    exact .inr (.inr (.inl ⟨seed, rfl, h.symm⟩))
  | next32 => exact .inr (.inr (.inr (.inl ⟨rfl, whenSeeded_next_iff.1 h⟩)))
  | next64 => exact .inr (.inr (.inr (.inr (.inl ⟨rfl, whenSeeded_next_iff.1 h⟩))))
  | dump => exact .inr (.inr (.inr (.inr (.inr ⟨rfl, whenSeeded_next_iff.1 h⟩))))

/-- When a command is refused, and with what reason: never for its operand (60_exceptions.md R171, R183). -/
theorem exec_refused_cases {i : Instr} {s : State} {r : Refusal} (h : exec i s = .refused r) :
    r = .unseeded ∧ s.valid = false ∧ (i = .clock ∨ i = .next32 ∨ i = .next64 ∨ i = .dump) := by
  cases i with
  | clock => exact ⟨(whenSeeded_refused_iff.1 h).2, (whenSeeded_refused_iff.1 h).1, .inl rfl⟩
  | seedb din => cases h
  | seedq seed => cases h
  | next32 => exact ⟨(whenSeeded_refused_iff.1 h).2, (whenSeeded_refused_iff.1 h).1, .inr (.inl rfl)⟩
  | next64 => exact ⟨(whenSeeded_refused_iff.1 h).2, (whenSeeded_refused_iff.1 h).1, .inr (.inr (.inl rfl))⟩
  | dump => exact ⟨(whenSeeded_refused_iff.1 h).2, (whenSeeded_refused_iff.1 h).1, .inr (.inr (.inr rfl))⟩

/-- What the decoder reads fits the bus (20_memory.md R43). -/
theorem wellFormed_of_decode {cfg : Config} {cmd : Byte} {din : BitVec cfg.busBits} {i : Instr}
    (h : decode cfg cmd din = .ok i) : i.wellFormed cfg = true := by
  obtain ⟨op, _, rfl⟩ := decode_eq_ok_iff.1 h
  cases op <;> simp [Op.withOperand, Instr.wellFormed, din.isLt]

/-- All a step can be, by the host's next event. -/
theorem step_cases (s : State) :
    (s.pending = [] ∧ step s = .next s) ∨
    (∃ rest, s.pending = .reset :: rest ∧ step s = .next (resetInstance { s with pending := rest })) ∨
    (∃ cmd din rest i, s.pending = .command cmd din :: rest ∧ decode s.cfg cmd din = .ok i ∧
      step s = exec i { s with pending := rest }) ∨
    (∃ cmd din rest, s.pending = .command cmd din :: rest ∧ decode s.cfg cmd din = .error .reservedCommand ∧
      step s = .refused .reservedCommand) := by
  cases hp : s.pending with
  | nil => simp [step, portStep, hp]
  | cons e rest =>
    cases e with
    | reset => simp [step, portStep, hp]
    | command cmd din =>
      cases hd : decode s.cfg cmd din with
      | ok i => simp [step, portStep, hp, runCommand, hd]
      | error e =>
        cases e
        simp [step, portStep, hp, runCommand, hd]

/-- A command that decodes runs on the state with its event gone. -/
theorem step_of_command {s : State} {cmd : Byte} {din : BitVec s.cfg.busBits} {rest : List (PortEvent s.cfg.busBits)}
    {i : Instr} (hp : s.pending = .command cmd din :: rest) (hd : decode s.cfg cmd din = .ok i) :
    step s = exec i { s with pending := rest } := by
  simp [step, portStep, hp, runCommand, hd]

/-! Runs. -/

theorem run_of_next {s t : State} (h : step s = .next t) (k : Nat) :
    Host.Core.run core (k + 1) s = Host.Core.run core k t := by
  simp [Host.Core.run, core, h]

theorem run_of_refused {s : State} {r : Refusal} (h : step s = .refused r) (k : Nat) :
    Host.Core.run core (k + 1) s = .refused r := by
  simp [Host.Core.run, core, h]

end Sys2Proof.Machine
end

