-- ==== Sys2Proof/Tests/Slice0.lean ====
section
/-! SUPPORT. Tests on fixed values. Expected results are the spec's own: worked examples of the rules and the vectors
of 95_test_vectors.md and 96_seeding_vectors_and_computations.md (the table is named at each group). -/

open Sys2Proof Sys2Proof.Machine

namespace Sys2Proof.Tests

/-- A seeded instance with given words and nothing pending. -/
def seededState (cfg : Config) (reg : Vector (Word cfg.W) cfg.nReg) (ctr : Word cfg.W) : State :=
  { cfg, valid := true, gen := ⟨reg, ctr⟩, rsp := .noResponse, pending := [] }

/-- The next state of an outcome, if it has one. -/
def nextOf : Result → Option State
  | .next s => some s
  | .refused _ => none

/-- The refusal of an outcome, if it is one. -/
def refusalOf : Result → Option Refusal
  | .next _ => none
  | .refused r => some r

/-- What the host sees of an outcome's next state: the response and the state words. -/
def seen (o : Result) : Option (ResponseView × List Nat) :=
  (nextOf o).map fun s => (s.hostView.rsp, s.hostView.words)

abbrev v96Xor : Config := Variant.config .v96 .xor
abbrev v160Add : Config := Variant.config .v160 .add
abbrev v160Xor : Config := Variant.config .v160 .xor
abbrev v64aXor : Config := Variant.config .v64a .xor
abbrev v64bAdd : Config := Variant.config .v64b .add
abbrev v128dAdd : Config := Variant.config .v128d .add
abbrev v128dXor : Config := Variant.config .v128d .xor

/-- The start state of the worked examples of R84, R131 and R132. -/
def s160 (cfg : Config := v160Add) : State :=
  seededState cfg
    (Vector.ofFn fun i =>
      BitVec.ofNat cfg.W ([0x89ABCDEF, 0x76543210, 0x01234567, 0xFEDCBA98, 0x89ABCDEF].getD i 0))
    (BitVec.ofNat cfg.W 0x76543210)

/-- The start state of R131's third example. -/
def s128d (cfg : Config := v128dAdd) : State :=
  seededState cfg (Vector.ofFn fun _ => BitVec.ofNat cfg.W 0x0123456789ABCDEF) (BitVec.ofNat cfg.W 0xFEDCBA9876543210)

/-! Well-formedness: one ill-formed term for each check of R9 and of R43. -/

theorem test_wf_v160 : (Variant.v160.cfg .add).wf = true := by decide
theorem test_wf_refuses_width : ({ Variant.v160.cfg .add with W := 48 } : Cfg).wf = false := by decide
theorem test_wf_refuses_one_word : ({ Variant.v64a.cfg .add with R := 1 } : Cfg).wf = false := by decide
theorem test_wf_refuses_narrow_R2 : ({ Variant.v96.cfg .add with R := 2 } : Cfg).wf = false := by decide
theorem test_wf_refuses_wide_R4 : ({ Variant.v128d.cfg .add with R := 4 } : Cfg).wf = false := by decide
theorem test_wf_refuses_zero_shift : ({ Variant.v96.cfg .add with a := 0 } : Cfg).wf = false := by decide
theorem test_wf_refuses_b_of_width : ({ Variant.v96.cfg .add with b := 32 } : Cfg).wf = false := by decide
theorem test_wf_refuses_c_of_width : ({ Variant.v128d.cfg .add with c := 64 } : Cfg).wf = false := by decide
theorem test_wf_refuses_even_K : (Variant.v96.cfg .add 680753308).wf = false := by decide
theorem test_wf_refuses_wide_K : (Variant.v96.cfg .add (2 ^ 32 + 1)).wf = false := by decide
theorem test_build_refuses_even_K : (Variant.v96.cfg .add 680753308).build? = none := by decide
theorem test_wf_refuses_more_than_the_bus : Instr.wellFormed v160Add (.seedb (2 ^ 192)) = false := by decide
theorem test_wf_whole_bus : Instr.wellFormed v160Add (.seedb (2 ^ 192 - 1)) = true := by decide

/-! Decoding (R60, R61; 95 section 6.2): command bytes written out bit by bit, `cmd[7:3] = 00000` then `op`. -/

theorem test_decode_clock : decode v160Add 0b00000_001#8 0 = .ok .clock := by decide
theorem test_decode_seedb :
    decode v96Xor 0b00000_010#8 0x0F0E0D0C0B0A09080706050403020100 = .ok (.seedb 0x0F0E0D0C0B0A09080706050403020100) := by
  decide
theorem test_seedb_operand_bytes :
    (seedOperand v96Xor 0x0F0E0D0C0B0A09080706050403020100).toList = [0x00, 0x01, 0x02, 0x03, 0x04, 0x05, 0x06,
      0x07, 0x08, 0x09, 0x0A, 0x0B, 0x0C, 0x0D, 0x0E, 0x0F] := by decide
theorem test_decode_seedq :
    decode v160Add 0b00000_011#8 0xAAAAAAAABBBBBBBB0123456789ABCDEF = .ok (.seedq 0x0123456789ABCDEF) := by decide
theorem test_decode_next32 : decode v160Add 0b00000_100#8 5 = .ok .next32 := by decide
theorem test_decode_next64 : decode v160Add 0b00000_101#8 0 = .ok .next64 := by decide
theorem test_decode_dump : decode v160Add 0b00000_110#8 0 = .ok .dump := by decide
theorem test_decode_00 : decode v160Add 0x00 0 = .error .reservedCommand := by decide
theorem test_decode_07 : decode v160Add 0x07 0 = .error .reservedCommand := by decide
theorem test_decode_09 : decode v160Add 0x09 0 = .error .reservedCommand := by decide
theorem test_decode_84 : decode v160Add 0x84 0 = .error .reservedCommand := by decide
theorem test_encode_seedb_din :
    (encode v96Xor (.seedb (leNat [0x99, 0x76, 0xE9, 0x10, 0xEF, 0xCD, 0xAB, 0x89, 0x10, 0x32, 0x54, 0x76, 0x5D, 0x42, 0xE2, 0xFE])))
      = (0x02, 0xFEE2425D7654321089ABCDEF10E97699) := by decide
theorem test_table_word_dump : decodeTableWord 8 6 = some .dump := by decide
theorem test_table_word_seedb : decodeTableWord 8 2 = some (.seedb 0) := by decide
theorem test_table_word_seedq_operand : decodeTableWord 72 (3 + 256 * 1234) = some (.seedq 1234) := by decide

/-! The transform and the register step (95 sections 2.1, 2.2, 2.3, 2.6). -/

theorem test_xform_32 : xform 2 1 4 (0x89ABCDEF : Word 32) 0x89ABCDEF = 0xEF5450A3 := by decide
theorem test_xform_32_swapped : xform 10 5 26 (0x01234567 : Word 32) 0x89ABCDEF = 0x10E97699 := by decide
theorem test_xform_64 : xform 23 17 26 (0xFEDCBA9876543210 : Word 64) 0x0123456789ABCDEF = 0x1712CF77FF72CF13 := by decide
theorem test_xform1_lrl : xform1Lrl 13 7 17 (0x0123456789ABCDEF : Word 64) = 0x3F2800D6569E01B4 := by decide
theorem test_xform1_rlr : xform1Rlr 13 19 28 (0xFEDCBA9876543210 : Word 64) = 0x9D3658C8747A0CAB := by decide
theorem test_srStep_v128d :
    (srStep v128dAdd #v[0x0123456789ABCDEF, 0xFEDCBA9876543210]).toList = [0x1712CF77FF72CF13, 0x0123456789ABCDEF] := by
  decide

/-! CLOCK (R84 worked example; 95 section 2.4) and the counter's wrap (95 section 3). -/

theorem test_clock_v160 :
    seen (exec .clock (s160)) = some (.done,
      [0xEF5450A3, 0x89ABCDEF, 0x76543210, 0x01234567, 0xFEDCBA98, 0x7659B9D5]) := by decide
theorem test_clock_v64b :
    seen (exec .clock (seededState v64bAdd #v[0x0123456789ABCDEF] 0xFEDCBA9876543210)) =
      some (.done, [0x59E67E5DD69C73ED, 0xFEDCBA987659B9D5]) := by decide
theorem test_weyl_wraps_to_zero : weylStep v160Add 0xFFFA783B = 0 := by decide
theorem test_weyl_drops_carry : weylStep v128dAdd 0xFFFFFFFFFFFFFFFF = 0x587C4 := by decide

/-! SEEDB (96 section 4.1) and SEEDQ (96 sections 4.2, 4.3). -/

theorem test_seedb_zero_escape :
    seen (exec (.seedb (leNat (List.replicate 15 0 ++ [0x80]))) (State.afterReset v96Xor [])) =
      some (.done, [0xFFFFFFFF, 0xFFFFFFFF, 0xFFFFFFFF, 0x80000000]) := by decide
theorem test_seedb_little_endian :
    seen (exec (.seedb (leNat [0x00, 0x01, 0x02, 0x03, 0x04, 0x05, 0x06, 0x07, 0x08, 0x09, 0x0A, 0x0B, 0x0C, 0x0D, 0x0E, 0x0F]))
      (State.afterReset v64aXor [])) = some (.done, [0x0706050403020100, 0x0F0E0D0C0B0A0908]) := by decide
theorem test_seedq_v160 :
    seen (exec (.seedq 1234) State.reset) =
      some (.done, [0x000004D2, 0xFFFFFB2D, 0x00000000, 0xFFFFFFFF, 0x000004D2, 0xFFFFFB2D]) := by decide
theorem test_seedq_v128d_zero :
    seen (exec (.seedq 0) (State.afterReset v128dAdd [])) =
      some (.done, [0xFFFFFFFFFFFFFFFF, 0x0000000000000000, 0xFFFFFFFFFFFFFFFF]) := by decide
theorem test_qctr32_hi :
    qctr32Word ⟨Variant.v128.cfg .add 362437 .lrl .hi, by decide⟩ 0x0123456789ABCDEF = 0x01234567 := by decide
theorem test_qctr32_zero :
    qctr32Word ⟨Variant.v160.cfg .add 362437 .lrl .zero, by decide⟩ 1234 = 0 := by decide

/-! NEXT32 and NEXT64 (R131, R132, R133 worked examples). -/

theorem test_next32_v160_add :
    (seen (exec .next32 (s160))).map (·.1) = some (.dout 0x65AE0A78) := by decide
theorem test_next32_truncates :
    (seen (exec .next32 (s128d))).map (·.1) = some (.dout 0x75CC88E8) := by decide
theorem test_next64_v160_xor :
    (seen (exec .next64 (s160 v160Xor))).map (·.1) = some (.dout 0xFFF2743A990DE976) := by decide
theorem test_next64_v160_add_no_carry :
    (seen (exec .next64 (s160))).map (·.1) = some (.dout 0x000587C465AE0A78) := by decide
theorem test_next64_v128d_xor :
    (seen (exec .next64 (s128d v128dXor))).map (·.1) = some (.dout 0xEA318BEF892B76C6) := by decide

/-! DUMP (95 section 6.1). -/

theorem test_dump_v96 :
    seen (exec .dump (seededState v96Xor #v[0x10E97699, 0x89ABCDEF, 0x76543210] 0xFEE2425D)) =
      some (.sout 0xFEE2425D7654321089ABCDEF10E97699, [0x10E97699, 0x89ABCDEF, 0x76543210, 0xFEE2425D]) := by decide
theorem test_dump_v128d :
    (seen (exec .dump (seededState v128dAdd #v[0x14ED3177FF72CF13, 0x0123456789ABCDEF] 0xFEDCBA987659B9D5))).map (·.1) =
      some (.sout 0xFEDCBA987659B9D50123456789ABCDEF14ED3177FF72CF13) := by decide

/-! Steps of the port: refusals (95 section 6.3), the order of the two tests (R174), reset (R191). -/

theorem test_unseeded_next32 : refusalOf (step (State.reset.withFetchWord 8 4)) = some .unseeded := by decide
theorem test_unseeded_dump : refusalOf (step (State.reset.withFetchWord 8 6)) = some .unseeded := by decide
theorem test_reserved_before_valid : refusalOf (step (State.reset.withFetchWord 8 0)) = some .reservedCommand := by decide
theorem test_reserved_seeded : refusalOf (step ((s160).withFetchWord 8 0x84)) = some .reservedCommand := by decide
theorem test_seedq_first_step : (seen (step (State.reset.withFetchWord 8 3))).map (·.1) = some .done := by decide
theorem test_reseed_replaces :
    (seen (step ((s160).withFetchWord 72 (3 + 256 * 5)))).map (·.2) =
      some [0x00000005, 0xFFFFFFFA, 0, 0xFFFFFFFF, 0x00000005, 0xFFFFFFFA] := by decide
theorem test_reset_clears_valid :
    (seen (step { s160 with pending := [.reset] })) = some (.noResponse, []) := by decide

/-! The assembler (95 section 8, programs P2 and P7). -/

theorem test_assemble_p2_encodings :
    assemble v96Xor [.seedFromBytes (List.replicate 16 0), .nextU64, .skip 1, .byte 0x07] =
      some [.command 0x02 0, .command 0x05 0, .command 0x01 0, .command 0x07 0] := by decide
theorem test_load_p7 :
    ((AsmProgram.load ⟨.v128, .add, 362437, .lrl, .indexed, [.seedFromU64 1, .byte 0x07]⟩).bind fun s =>
      seen (step s)) = some (.done, [0x00000001, 0xFFFFFFFE, 0x00000000, 0xFFFFFFFF, 0x00000001]) := by decide
theorem test_load_refuses_even_K :
    (AsmProgram.load ⟨.v128, .add, 2, .lrl, .indexed, []⟩) = none := by decide
theorem test_assemble_refuses_short_buffer :
    assemble v96Xor [.seedFromBytes (List.replicate 15 0)] = none := by decide

/-! Witnesses: for each obligation with hypotheses, concrete values that meet all of them together (one for each clause).
The namespace of a witness names the obligation. -/

/-- The outcome is a next state. -/
def completes (o : Result) : Bool := (nextOf o).isSome

theorem exists_next {o : Result} (h : completes o = true) : ∃ t, o = .next t := by
  cases o with
  | next s => exact ⟨s, rfl⟩
  | fault f => cases f
  | refused r => cases h

theorem exists_next_with {o : Result} {p : State → Bool} (h : (nextOf o).any p = true) : ∃ t, o = .next t ∧ p t = true := by
  cases o with
  | next s => exact ⟨s, rfl, h⟩
  | fault f => cases f
  | refused r => cases h

theorem refused_of {o : Result} {r : Refusal} (h : refusalOf o = some r) : o = .refused r := by
  cases o with
  | next s => cases h
  | fault f => cases f
  | refused r' => cases h; rfl

/-- One-word instances. -/
def s64b (cfg : Config := Variant.config .v64b .add) : State :=
  seededState cfg (Vector.ofFn fun _ => BitVec.ofNat cfg.W 0x0123456789ABCDEF) 0

/-- An instance with a host about to present one command. -/
abbrev withCommand (s : State) (cmd : Byte) (din : BitVec s.cfg.busBits := 0) : State :=
  { s with pending := [.command cmd din] }

/-- Every command completes on seeded instances of a 32-bit, a two-word and a one-word configuration: the witness of
DecoderIsTheOpcodeMap's second half, CommandsWriteOnlyTheirOwnState, DumpAndSeedingAreIdempotent and
SeedingEstablishesNonDegeneracy. -/
theorem witness_every_command_completes :
    (∀ i ∈ [Instr.clock, .seedb 0, .seedq 0, .next32, .next64, .dump], ∃ t, exec i (s160) = .next t) ∧
    (∀ i ∈ [Instr.clock, .seedb 0, .seedq 0, .next32, .next64, .dump], ∃ t, exec i (s128d) = .next t) ∧
    (∀ i ∈ [Instr.clock, .seedb 0, .seedq 0, .next32, .next64, .dump], ∃ t, exec i (s64b) = .next t) := by
  refine ⟨?_, ?_, ?_⟩ <;> simp only [List.mem_cons, List.not_mem_nil, or_false, forall_eq_or_imp, forall_eq] <;>
    exact ⟨exists_next (by decide), exists_next (by decide), exists_next (by decide), exists_next (by decide),
      exists_next (by decide), exists_next (by decide)⟩

theorem witness_ConfigurationsAreTheWellFormedTuples :
    (2 ^ 32 - 1 < 2 ^ (Variant.v160.cfg .add (2 ^ 32 - 1)).W ∧ (2 ^ 32 - 1) % 2 = 1) ∧
    (1 < 2 ^ (Variant.v64a.cfg .xor 1 .unstated .hi).W ∧ 1 % 2 = 1) := by decide

theorem witness_StepKeepsTheConfiguration : ∃ t, step (withCommand (s160) 0x04) = .next t := exists_next (by decide)

theorem witness_DecodeOfEncodeIsTheCommand :
    Instr.wellFormed v160Add (.seedb (2 ^ 192 - 1)) = true ∧
    Instr.wellFormed v64aXor (.seedb 0) = true ∧
    Instr.wellFormed v64aXor (.seedq (2 ^ 64 - 1)) = true := by decide

theorem witness_EncodeOfDecodeIsTheWord :
    ∃ i, decode v96Xor 0x02 (BitVec.allOnes 128) = .ok i ∧ i.op = .seedb := ⟨.seedb (2 ^ 128 - 1), by decide⟩

theorem witness_InputBusLayout :
    (0x06 : Byte) = 0x01 ∨ (0x06 : Byte) = 0x04 ∨ (0x06 : Byte) = 0x05 ∨ (0x06 : Byte) = 0x06 := by decide

theorem witness_StepRunsTheNextPortEvent :
    ((withCommand (s160) 0x03 7).pending = .command 0x03 7 :: [] ∧ decode v160Add 0x03 7 = .ok (.seedq 7)) ∧
    ((withCommand (s160) 0x07).pending = .command 0x07 0 :: [] ∧ decode v160Add 0x07 0 = .error .reservedCommand) ∧
    { s160 with pending := [PortEvent.reset] }.pending = .reset :: [] ∧
    (s160).pending = [] := by decide

theorem witness_FetchWordIsTheNextCommand :
    decode State.reset.cfg (BitVec.ofNat 8 (0x203 % 2 ^ 16)) (BitVec.ofNat State.reset.cfg.busBits (0x203 % 2 ^ 16 / 256)) =
      .ok (.seedq 2) := by decide

theorem witness_CommandOutcomeTable_reserved :
    ∀ cmd ∈ [(0x00 : Byte), 0x07, 0xFF], (withCommand (s160) cmd).pending = .command cmd 0 :: [] ∧
      ¬ (1 ≤ cmd.toNat ∧ cmd.toNat ≤ 6) := by decide
theorem witness_CommandOutcomeTable_unseeded :
    ∀ cmd ∈ [(0x01 : Byte), 0x04, 0x05, 0x06], (withCommand .reset cmd).pending = .command cmd 0 :: [] ∧
      (cmd.toNat = 1 ∨ cmd.toNat = 4 ∨ cmd.toNat = 5 ∨ cmd.toNat = 6) ∧ (withCommand .reset cmd).valid = false := by decide
theorem witness_CommandOutcomeTable_seeded :
    ∀ cmd ∈ [(0x01 : Byte), 0x04, 0x05, 0x06], (withCommand (s160) cmd).pending = .command cmd 0 :: [] ∧
      (cmd.toNat = 1 ∨ cmd.toNat = 4 ∨ cmd.toNat = 5 ∨ cmd.toNat = 6) ∧ (withCommand (s160) cmd).valid = true := by decide
theorem witness_CommandOutcomeTable_seeding :
    ∀ cmd ∈ [(0x02 : Byte), 0x03], (withCommand .reset cmd).pending = .command cmd 0 :: [] ∧
      (cmd.toNat = 2 ∨ cmd.toNat = 3) := by decide

theorem witness_StepStopsOnlyByTheTwoRefusals : ∃ r, step (withCommand .reset 0x01) = .refused r := ⟨.unseeded, refused_of (by decide)⟩

theorem witness_ValidBitLifecycle_reset :
    ∃ t, step { s160 with pending := [.reset] } = .next t ∧
      { s160 with pending := [PortEvent.reset] }.pending.head? = some .reset := ⟨_, rfl, rfl⟩
theorem witness_ResetReadsNothingAndCannotFail :
    { s160 with pending := [PortEvent.reset, .command 0x04 0] }.pending = .reset :: [.command 0x04 0] ∧ (s160).pending = [] ∧
    (∃ t, step { s160 with pending := [.reset] } = .next t ∧ t.valid = false) ∧
    { s160 with pending := [PortEvent.reset] }.valid = true := ⟨rfl, rfl, ⟨_, rfl, rfl⟩, rfl⟩
theorem witness_ValidBitLifecycle_kept :
    (∃ t, step (withCommand (s160) 0x06) = .next t) ∧ (withCommand (s160) 0x06).valid = true ∧
      (withCommand (s160) 0x06).pending.head? ≠ some .reset := ⟨exists_next (by decide), by decide, by decide⟩
theorem witness_ValidBitLifecycle_set :
    (∃ t, step (withCommand .reset 0x03) = .next t ∧ t.valid = true) ∧ (withCommand .reset 0x03).valid = false :=
  ⟨exists_next_with (p := (·.valid)) (by decide), rfl⟩
theorem witness_ValidBitLifecycle_seeded :
    (s160).valid = true ∧ State.reset.valid = false := by decide

theorem witness_ClockStepsRegisterAndCounterOnce :
    State.reset.valid = false ∧
    ((s160).valid = true ∧ 3 ≤ (s160).cfg.R ∧ 0 + 1 < (s160).cfg.nReg ∧ 3 + 1 < (s160).cfg.nReg) ∧
    ((s64b).valid = true ∧ (s64b).cfg.R = 2 ∧ (s64b).cfg.xform1 = .lrl) := by decide

theorem witness_XformLinearAndBijective : 0 < 1 ∧ 0 < 31 := by decide
theorem witness_Xform1BijectiveFixingZero : v64bAdd.R = 2 ∧ (1 : Word v64bAdd.W) ≠ 0 := by decide
theorem witness_RegisterStepBijectiveFixingZero :
    (s160).gen.reg ≠ Vector.replicate (s160).cfg.nReg 0 ∧ (s64b).gen.reg ≠ Vector.replicate (s64b).cfg.nReg 0 ∧
    3 ≤ (s128d).cfg.R ∧ 0 + 1 < (s128d).cfg.nReg := by decide
theorem witness_RegisterRecurrence :
    (4 < v160Add.nReg ∧ 4 ≤ 4) ∧ (4 < v160Add.nReg ∧ 3 < 4) ∧ (3 ≤ v160Add.R ∧ v160Add.R - 2 ≤ 4) ∧
    (3 ≤ v160Add.R ∧ 3 < v160Add.R - 2) ∧ (3 ≤ v128dAdd.R ∧ 0 < v128dAdd.R - 2) := by decide

theorem witness_CounterClosedFormAndPeriod :
    2 ^ 32 - 1 < 2 ^ v160Add.W ∧ ((clock v160Add)^[2 ^ 32 - 1] (s160).gen).ctr = ((clock v160Add)^[2 ^ 32 - 1] (s160).gen).ctr ∧
    (clock v160Add)^[2 ^ 32 - 1] (s160).gen = (clock v160Add)^[2 ^ 32 - 1] (s160).gen := ⟨by decide, rfl, rfl⟩

theorem witness_StepUnrolledPerVariant :
    (∀ v ∈ [Variant.v96, .v128, .v160, .v192, .v128d, .v64a, .v64b],
      (v.cfg .xor 1 .lrl .indexed).wf = true ∧ (v.cfg .add (2 ^ 32 - 1) .unstated .hi).wf = true) := by decide

/-- Words `w[0] .. w[R-2]` of a 16-byte buffer whose register bytes are zero, and of one with a single high register byte. -/
theorem witness_SeedbLoadsTheBuffer :
    (∀ i < v96Xor.R - 1, ∑ k ∈ Finset.range (v96Xor.W / 8),
      ((seedOperand v96Xor (0x80 * 2 ^ 120)).toList.getD (i * (v96Xor.W / 8) + k) 0).toNat * 2 ^ (8 * k) = 0) ∧
    ¬ ∀ i < v96Xor.R - 1, ∑ k ∈ Finset.range (v96Xor.W / 8),
      ((seedOperand v96Xor (0x80 * 2 ^ 88)).toList.getD (i * (v96Xor.W / 8) + k) 0).toNat * 2 ^ (8 * k) = 0 := by decide

/-- The pair of R119: two different buffers, one state. -/
theorem test_seedb_pair :
    seedBytes v96Xor (seedOperand v96Xor (0x04030201 * 2 ^ 96)) =
      seedBytes v96Xor (seedOperand v96Xor (0x04030201 * 2 ^ 96 + (2 ^ 96 - 1))) := by decide

/-- The 128-bit register with another `QCTR32`. -/
abbrev v128With (q : Qctr32) : Config := ⟨Variant.v128.cfg .add 362437 .lrl q, by cases q <;> decide⟩

theorem witness_SeedqExpandsOnNarrowWords :
    ((State.afterReset (v128With .indexed) []).cfg.W = 32 ∧ (v128With .indexed).qctr32 = .indexed) ∧
    ((State.afterReset (v128With .zero) []).cfg.W = 32 ∧ (v128With .zero).qctr32 = .zero) ∧
    ((State.afterReset (v128With .hi) []).cfg.W = 32 ∧ (v128With .hi).qctr32 = .hi) ∧
    (v96Xor.W = 32 ∧ 4 ≤ v96Xor.R) ∧ 3 < (v128With .hi).nReg := by decide
theorem witness_SeedqExpandsOnNarrowWords_injective (seed : BitVec 64) :
    exec (.seedq seed) State.reset = exec (.seedq seed) State.reset := rfl
theorem witness_SeedqExpandsOnWideWords :
    (State.afterReset v128dAdd []).cfg.W = 64 ∧ 1 < v128dAdd.nReg ∧ (State.afterReset v64aXor []).cfg.W = 64 := by decide
theorem witness_OperatorsAgreeExactlyWhen :
    (((0x80000000 : Word v160Add.W) &&& 0xFFFFFFFF).toNat = 2 ^ (v160Add.W - 1)) ∧
    (((s64b).gen.reg[0]'(s64b).cfg.nReg_pos &&& (s64b).gen.ctr).toNat = 0) ∧ v160Add.W = 32 := by decide

theorem witness_OperatorsAgreeExactlyWhen_run :
    (withCommand (s160) 0x04).pending = [((0x04 : Byte), (0 : BitVec v160Add.busBits))].map (fun p => .command p.1 p.2) ++ [] ∧
    (∃ t, Host.Core.run core 1 (withCommand (s160) 0x04) = .next t) ∧
    ∃ q, Host.Core.run core 1 (withCommand .reset 0x04) = .refused q :=
  ⟨rfl, exists_next (o := Host.Core.run core 1 (withCommand (s160) 0x04)) (by decide),
    _, refused_of (o := Host.Core.run core 1 (withCommand .reset 0x04)) (r := .unseeded) (by decide)⟩
theorem witness_Next32ClocksThenCombines :
    State.reset.valid = false ∧
    ((s160).valid = true ∧ (s160).cfg.op = .add) ∧ ((s160 v160Xor).valid = true ∧ (s160 v160Xor).cfg.op = .xor) ∧
    ((s128d).valid = true ∧ (s128d).cfg.op = .add) ∧ ((s128d v128dXor).valid = true ∧ (s128d v128dXor).cfg.op = .xor) := by
  decide
theorem witness_Next64NarrowTwoHalves :
    State.reset.valid = false ∧
    ((s160).cfg.W = 32 ∧ (s160).valid = true ∧ (s160).cfg.op = .add) ∧
    ((s160 v160Xor).cfg.W = 32 ∧ (s160 v160Xor).valid = true ∧ (s160 v160Xor).cfg.op = .xor) := by decide
theorem witness_Next64NarrowTwoHalves_after_an_output :
    ∃ t, exec .next32 (s160) = .next t ∧ (s160).cfg.W = 32 ∧ (s160).cfg.op = .add ∧ (s160).valid = true ∧
      ∃ u, exec .next64 t = .next u := ⟨_, rfl, rfl, rfl, rfl, exists_next (by decide)⟩
theorem witness_Next64WideWholeWord :
    State.reset.valid = false ∧
    ((s128d).cfg.W = 64 ∧ (s128d).valid = true ∧ (s128d).cfg.op = .add) ∧
    ((s128d v128dXor).cfg.W = 64 ∧ (s128d v128dXor).valid = true ∧ (s128d v128dXor).cfg.op = .xor) ∧
    ((s64b).cfg.W = 64 ∧ (s64b).valid = true) := by decide
theorem witness_OneClockPerOutput : (s160).valid = true ∧ (s128d).valid = true ∧ (s64b).valid = true := by decide
theorem witness_NoPeekWithoutAdvancing :
    (∀ i ∈ [Instr.clock, .next32, .next64], (i = .clock ∨ i = .next32 ∨ i = .next64) ∧ ∃ t, exec i (s160) = .next t) ∧
    ∃ t v, exec .next32 (s160) = .next t ∧ t.rsp = .dout v := by
  refine ⟨?_, _, _, rfl, rfl⟩
  simp only [List.mem_cons, List.not_mem_nil, or_false, forall_eq_or_imp, forall_eq]
  exact ⟨⟨by decide, exists_next (by decide)⟩, ⟨by decide, exists_next (by decide)⟩, by decide, exists_next (by decide)⟩

theorem witness_MixedCommandsClockOnceEach :
    (s160).valid = true ∧
    (∀ p ∈ [((0x01 : Byte), (0 : BitVec v160Add.busBits)), (0x06, 1), (0x05, 0), (0x04, 2)],
      p.1 = 0x01 ∨ p.1 = 0x04 ∨ p.1 = 0x05 ∨ p.1 = 0x06) ∧
    { s160 with pending := [.command 0x01 0, .command 0x06 1, .command 0x05 0, .command 0x04 2, .reset] }.pending =
      [((0x01 : Byte), (0 : BitVec v160Add.busBits)), (0x06, 1), (0x05, 0), (0x04, 2)].map (fun p => .command p.1 p.2) ++
        [.reset] := ⟨by decide, by simp, rfl⟩

theorem witness_DumpReturnsTheWords :
    State.reset.valid = false ∧ (s160).valid = true ∧ 0 < (s160).cfg.R - 1 ∧ 4 < (s160).cfg.R - 1 ∧
    (s64b).valid = true ∧ 0 < (s64b).cfg.R - 1 := by decide

theorem s160_nonDegenerate : (s160).NonDegenerate := fun _ => ⟨⟨0, by decide⟩, by decide⟩

theorem witness_SeedbOfDumpRestoresTheState :
    (s160).valid = true ∧ (s160).NonDegenerate ∧ [PortEvent.command (b := v160Add.busBits) 0x04 0] ≠ [] :=
  ⟨rfl, s160_nonDegenerate, by decide⟩
theorem witness_StepKeepsNonDegeneracy :
    (withCommand (s160) 0x01).NonDegenerate ∧ ∃ t, step (withCommand (s160) 0x01) = .next t :=
  ⟨s160_nonDegenerate, exists_next (by decide)⟩
theorem witness_EqualStatesHaveEqualFutures : (withCommand (s160) 0x05).pending ≠ [] := by decide
theorem witness_UnseededWordsAreUnobservable : (withCommand .reset 0x03).valid = false := by decide
theorem witness_BootRuleIsExactlySafety :
    keepsBootRule State.reset.valid (b := v160Add.busBits)
      [.command 0x03 5, .command 0x04 0, .reset, .command 0x02 0, .command 0x06 0] = true ∧
    keepsBootRule State.reset.valid (b := v160Add.busBits) [.command 0x03 5, .reset, .command 0x04 0] = false ∧
    keepsBootRule true (b := v160Add.busBits) [.command 0x04 5, .command 0x08 0] = false := by decide

theorem witness_SeedbOperandHasExactlyTheBusSize :
    ∃ r, exec .dump State.reset = .refused r := ⟨.unseeded, rfl⟩

theorem witness_PseudoInstructionsExpand :
    AsmCommand.instr? v96Xor .next64 = some .next64 ∧
    AsmCommand.instr? v96Xor (.seedb (List.replicate 15 0 ++ [1])) = some (.seedb (2 ^ 120)) := by decide
theorem witness_AssembledCommandRuns :
    (∃ e, AsmCommand.instr? (s160).cfg (.seedq 3) = some (.seedq 3) ∧
      assembleLine (s160).cfg (.command (.seedq 3)) = some [e] ∧ { s160 with pending := [e] }.pending = e :: []) ∧
    (List.replicate 24 (0xFF : Byte)).length = v160Add.R * v160Add.W / 8 := ⟨⟨_, rfl, rfl, rfl⟩, by decide⟩

end Sys2Proof.Tests
end

section
/-! PROOFS. Scope and configurations (00_scope.md): the configuration under a step (R4), the table of configurations
(R8), and the well-formed tuples (R9). -/

/-! ## The configuration under a command and a step -/

namespace Sys2Proof.Machine

/-- R4, for one command: all six meanings are record updates that leave `cfg` alone. -/
theorem exec_keeps_cfg {i : Instr} {s t : State} (h : exec i s = .next t) : t.cfg = s.cfg := by
  rcases exec_next_cases h with
    ⟨-, -, rfl⟩ | ⟨_, -, rfl⟩ | ⟨_, -, rfl⟩ | ⟨-, -, rfl⟩ | ⟨-, -, rfl⟩ | ⟨-, -, rfl⟩ <;> rfl

/-- R4, for one event of the port: nothing presented, reset, a command that decodes, a reserved byte. -/
theorem step_keeps_cfg {s t : State} (h : step s = .next t) : t.cfg = s.cfg := by
  rcases step_cases s with ⟨-, hs⟩ | ⟨_, -, hs⟩ | ⟨_, _, _, _, -, -, hs⟩ | ⟨_, _, _, -, -, hs⟩
  · cases hs.symm.trans h
    rfl
  · cases hs.symm.trans h
    rfl
  · simpa using exec_keeps_cfg (hs.symm.trans h)
  · cases hs.symm.trans h

/-- Settles O3: every step that answers a next state is one of the cases of `step_cases`, and each keeps `cfg`. -/
theorem stepKeepsTheConfiguration : Obligations.StepKeepsTheConfiguration := by
  unfold Obligations.StepKeepsTheConfiguration
  exact fun _ _ => step_keeps_cfg

end Sys2Proof.Machine

/-! ## The well-formed tuples -/

namespace Sys2Proof

/-- The type leaves no third operator, so R9's constraint on `OP` asks nothing. -/
theorem CombineOp.eq_add_or_eq_xor (op : CombineOp) : op = .add ∨ op = .xor := by
  cases op
  · exact .inl rfl
  · exact .inr rfl

/-- The check of R9 as a proposition, constraint by constraint. -/
theorem Cfg.wf_iff (c : Cfg) : c.wf = true ↔
    (c.W = 32 ∨ c.W = 64) ∧ 2 ≤ c.R ∧ (c.W = 32 → 3 ≤ c.R) ∧ (c.W = 64 → c.R ≤ 3) ∧
      (0 < c.a ∧ c.a < c.W) ∧ (0 < c.b ∧ c.b < c.W) ∧ (0 < c.c ∧ c.c < c.W) ∧
      (c.op = .add ∨ c.op = .xor) ∧ (0 < c.K ∧ c.K < 2 ^ c.W ∧ c.K % 2 = 1) ∧ 64 ≤ c.R * c.W := by
  simp only [Cfg.wf, Bool.and_eq_true, Bool.or_eq_true, beq_iff_eq, decide_eq_true_eq, and_assoc,
    c.op.eq_add_or_eq_xor, true_and]

/-- An ill-formed tuple builds no instance. -/
theorem Cfg.build?_eq_none_iff (c : Cfg) : c.build? = none ↔ c.wf = false := by
  simp [Cfg.build?]

/-- A well-formed tuple builds the instance with that tuple, and no other. -/
theorem Cfg.build?_eq_some_iff {c : Cfg} {cfg : Config} : c.build? = some cfg ↔ cfg.toCfg = c := by
  constructor
  · intro h
    unfold Cfg.build? at h
    split at h
    · cases h
      rfl
    · cases h
  · rintro rfl
    exact dif_pos cfg.ok

/-- Every row of R8 is well formed with any odd `K` of the word width: the other constraints are numbers of the row. -/
theorem Variant.cfg_wf (v : Variant) (op : CombineOp) {K : Nat} (x : Xform1) (q : Qctr32)
    (hlt : K < 2 ^ (v.cfg op K x q).W) (hodd : K % 2 = 1) : (v.cfg op K x q).wf = true := by
  have hK : 0 < K ∧ K < 2 ^ (v.cfg op K x q).W ∧ K % 2 = 1 := ⟨by omega, hlt, hodd⟩
  rw [Cfg.wf_iff]
  have hop := op.eq_add_or_eq_xor
  cases v <;> simpa [Variant.cfg, Variant.row, hop] using hK

/-- Settles O1, from the check read as a proposition, the two outcomes of building, and the rows of the table. -/
theorem configurationsAreTheWellFormedTuples : Obligations.ConfigurationsAreTheWellFormedTuples := by
  unfold Obligations.ConfigurationsAreTheWellFormedTuples
  exact ⟨Cfg.wf_iff, fun c => c.build?_eq_none_iff.symm, fun _ _ => Cfg.build?_eq_some_iff,
    fun v op _ x q => v.cfg_wf op x q⟩

/-! ## The table of configurations -/

/-- A variant's instance holds the tuple of its row, the operator as given. -/
@[simp] theorem Variant.config_toCfg (v : Variant) (op : CombineOp) : (v.config op).toCfg = v.cfg op := rfl

/-- Settles O2: the tuple of each of the seven rows; the other columns follow from its `R` and `W`. -/
theorem variantTableOfSevenRows : Obligations.VariantTableOfSevenRows := by
  unfold Obligations.VariantTableOfSevenRows
  intro op
  simp [Config.nReg, Config.busBits, Config.busBytes, Variant.cfg, Variant.row]

end Sys2Proof
end

section
/-! PROOFS. State (10_state.md): the `valid` bit (R25), the non-degeneracy invariant (R22), what a run does not depend on
(R32, R35), and the state after reset. -/

/-! ## A step that answers a next state -/

namespace Sys2Proof.Machine

/-- `step_cases` for a step that completes: nothing presented, reset, or a command that completes. -/
theorem step_next_cases {s t : State} (h : step s = .next t) :
    (s.pending = [] ∧ t = s) ∨
    (∃ rest, s.pending = .reset :: rest ∧ t = resetInstance { s with pending := rest }) ∨
    (∃ cmd din rest i, s.pending = .command cmd din :: rest ∧ decode s.cfg cmd din = .ok i ∧
      exec i { s with pending := rest } = .next t) := by
  rcases step_cases s with ⟨hp, hs⟩ | ⟨rest, hp, hs⟩ | ⟨cmd, din, rest, i, hp, hd, hs⟩ | ⟨_, _, _, -, -, hs⟩
  · cases hs.symm.trans h
    exact .inl ⟨hp, rfl⟩
  · cases hs.symm.trans h
    exact .inr (.inl ⟨rest, hp, rfl⟩)
  · exact .inr (.inr ⟨cmd, din, rest, i, hp, hd, hs.symm.trans h⟩)
  · cases hs.symm.trans h

theorem step_of_nothing_pending {s : State} (hp : s.pending = []) : step s = .next s := by
  simp [step, portStep, hp]

theorem step_of_reset {s : State} {rest : List (PortEvent s.cfg.busBits)} (hp : s.pending = .reset :: rest) :
    step s = .next (resetInstance { s with pending := rest }) := by
  simp [step, portStep, hp]

theorem step_of_reserved {s : State} {cmd : Byte} {din : BitVec s.cfg.busBits} {rest : List (PortEvent s.cfg.busBits)}
    (hp : s.pending = .command cmd din :: rest) (hd : decode s.cfg cmd din = .error .reservedCommand) :
    step s = .refused .reservedCommand := by
  simp [step, portStep, hp, runCommand, hd]

/-! ## The valid bit -/

/-- Seeding sets `valid`, and every other command that completes found it set. -/
theorem exec_next_valid {i : Instr} {s t : State} (h : exec i s = .next t) : t.valid = true := by
  rcases exec_next_cases h with
    ⟨-, hv, rfl⟩ | ⟨_, -, rfl⟩ | ⟨_, -, rfl⟩ | ⟨-, hv, rfl⟩ | ⟨-, hv, rfl⟩ | ⟨-, hv, rfl⟩
  · exact hv
  · rfl
  · rfl
  · exact hv
  · exact hv
  · exact hv

/-- Only a seeding command completes while `valid` is 0. -/
theorem exec_next_of_unseeded {i : Instr} {s t : State} (hv : s.valid = false) (h : exec i s = .next t) :
    i.op = .seedb ∨ i.op = .seedq := by
  rcases exec_next_cases h with
    ⟨-, hs, -⟩ | ⟨_, rfl, -⟩ | ⟨_, rfl, -⟩ | ⟨-, hs, -⟩ | ⟨-, hs, -⟩ | ⟨-, hs, -⟩
  · simp [hv] at hs
  · exact .inl rfl
  · exact .inr rfl
  · simp [hv] at hs
  · simp [hv] at hs
  · simp [hv] at hs

/-- R25: "when 1, every command has its normal effect". -/
theorem exec_completes_of_valid {s : State} (hv : s.valid = true) (i : Instr) : ∃ t, exec i s = .next t := by
  cases i with
  | clock => exact ⟨_, whenSeeded_of_valid hv _⟩
  | seedb din => exact ⟨_, exec_seedb din s⟩
  | seedq seed => exact ⟨_, exec_seedq seed s⟩
  | next32 => exact ⟨_, whenSeeded_of_valid hv _⟩
  | next64 => exact ⟨_, whenSeeded_of_valid hv _⟩
  | dump => exact ⟨_, whenSeeded_of_valid hv _⟩

/-- R171: the four commands that read `valid`. -/
theorem exec_refused_of_unseeded {s : State} (hv : s.valid = false) {i : Instr}
    (hi : i = .clock ∨ i = .next32 ∨ i = .next64 ∨ i = .dump) : exec i s = .refused .unseeded := by
  rcases hi with rfl | rfl | rfl | rfl <;> exact whenSeeded_of_not_valid hv _

end Sys2Proof.Machine

namespace Sys2Proof

/-- The decoder reads a command from that command's own byte only. -/
theorem byte_of_decode {cfg : Config} {cmd : Byte} {din : BitVec cfg.busBits} {i : Instr}
    (h : decode cfg cmd din = .ok i) : cmd = i.op.byte := by
  obtain ⟨op, hop, rfl⟩ := decode_eq_ok_iff.1 h
  rw [withOperand_op, byte_of_decodeOp hop]

end Sys2Proof

namespace Sys2Proof.Machine

theorem step_reset_clears_valid {s t : State} (h : step s = .next t) (hp : s.pending.head? = some .reset) :
    t.valid = false := by
  rcases step_next_cases h with ⟨hp', -⟩ | ⟨_, -, rfl⟩ | ⟨_, _, _, _, hp', -, -⟩
  · simp [hp'] at hp
  · rfl
  · simp [hp'] at hp

theorem step_keeps_valid {s t : State} (h : step s = .next t) (hv : s.valid = true)
    (hp : s.pending.head? ≠ some .reset) : t.valid = true := by
  rcases step_next_cases h with ⟨-, rfl⟩ | ⟨_, hp', -⟩ | ⟨_, _, _, _, -, -, hx⟩
  · exact hv
  · simp [hp'] at hp
  · exact exec_next_valid hx

/-- The step that sets `valid` ran the byte of SEEDB or of SEEDQ. -/
theorem step_sets_valid {s t : State} (h : step s = .next t) (hv : s.valid = false) (ht : t.valid = true) :
    ∃ din, s.pending.head? = some (.command 0x02 din) ∨ s.pending.head? = some (.command 0x03 din) := by
  rcases step_next_cases h with ⟨-, rfl⟩ | ⟨_, -, rfl⟩ | ⟨cmd, din, rest, i, hp, hd, hx⟩
  · simp [hv] at ht
  · simp at ht
  · refine ⟨din, ?_⟩
    rw [hp, byte_of_decode hd]
    obtain ⟨-, hseedb, hseedq, -⟩ := op_bytes
    rcases exec_next_of_unseeded (s := { s with pending := rest }) hv hx with hi | hi
    · exact .inl (by rw [hi, hseedb]; rfl)
    · exact .inr (by rw [hi, hseedq]; rfl)

/-- Settles O13: who sets and clears `valid`, by the step's event; what it lets run, by the command. -/
theorem validBitLifecycle : Obligations.ValidBitLifecycle := by
  unfold Obligations.ValidBitLifecycle
  exact ⟨afterReset_valid resetConfig [], fun _ _ => step_reset_clears_valid, fun _ _ => step_keeps_valid,
    fun _ _ => step_sets_valid, fun _ _ _ => exec_next_valid, fun _ _ _ => exec_next_valid,
    fun _ i hv => exec_completes_of_valid hv i, fun _ _ hv hi => exec_refused_of_unseeded hv hi⟩

/-! ## No step of the register makes it all zero -/

section
variable {W : Nat}

/-- A right shift by at least one place makes a non-zero word smaller, so it cannot give the word back. -/
theorem xor_shiftRight_eq_zero_iff {a : Nat} (ha : 0 < a) (x : Word W) : x ^^^ (x >>> a) = 0#W ↔ x = 0#W := by
  refine ⟨fun h => ?_, fun h => by simp [h]⟩
  have hx : x.toNat = x.toNat / 2 ^ a := by
    simpa [Nat.shiftRight_eq_div_pow] using congrArg BitVec.toNat (BitVec.xor_eq_zero_iff.1 h)
  by_contra hne
  have hpos : 0 < x.toNat := Nat.pos_of_ne_zero fun h0 => hne (BitVec.eq_of_toNat_eq h0)
  have hlt := Nat.div_lt_self hpos (Nat.one_lt_two_pow ha.ne')
  omega

/-- A left shift by at least one place gives the word back only if each bit, from the lowest up, is 0. -/
theorem xor_shiftLeft_eq_zero_iff {a : Nat} (ha : 0 < a) (x : Word W) : x ^^^ (x <<< a) = 0#W ↔ x = 0#W := by
  refine ⟨fun h => ?_, fun h => by simp [h]⟩
  have hx : x = x <<< a := BitVec.xor_eq_zero_iff.1 h
  have hbit : ∀ i, x.getLsbD i = false := by
    intro i
    induction i using Nat.strong_induction_on with
    | _ i ih =>
      rw [hx, BitVec.getLsbD_shiftLeft]
      by_cases hi : i < a
      · simp [hi]
      · simp [ih (i - a) (by omega)]
  exact BitVec.eq_of_getLsbD_eq fun i _ => by simp [hbit i]

theorem xform_zero_right_eq_zero_iff {a b : Nat} (ha : 0 < a) (hb : 0 < b) (c : Nat) (x : Word W) :
    xform a b c x 0#W = 0#W ↔ x = 0#W := by
  simp only [xform, BitVec.zero_shiftLeft, BitVec.xor_zero, xor_shiftLeft_eq_zero_iff hb, xor_shiftRight_eq_zero_iff ha]

theorem xform1Lrl_eq_zero_iff {a b c : Nat} (ha : 0 < a) (hb : 0 < b) (hc : 0 < c) (x : Word W) :
    xform1Lrl a b c x = 0#W ↔ x = 0#W := by
  simp only [xform1Lrl, xor_shiftLeft_eq_zero_iff hc, xor_shiftRight_eq_zero_iff hb, xor_shiftLeft_eq_zero_iff ha]

theorem xform1Rlr_eq_zero_iff {a b c : Nat} (ha : 0 < a) (hb : 0 < b) (hc : 0 < c) (x : Word W) :
    xform1Rlr a b c x = 0#W ↔ x = 0#W := by
  simp only [xform1Rlr, xor_shiftRight_eq_zero_iff hc, xor_shiftLeft_eq_zero_iff hb, xor_shiftRight_eq_zero_iff ha]

/-- Widening, or keeping the width, loses no bit. -/
theorem setWidth_eq_zero_iff {V : Nat} (h : W ≤ V) (x : Word W) : x.setWidth V = 0#V ↔ x = 0#W := by
  rw [← BitVec.toNat_inj, BitVec.toNat_setWidth_of_le h, ← BitVec.toNat_inj]
  simp

/-- A permutation with its value at 0 exchanged for 0 maps only 0 to 0. -/
theorem swap_perm_eq_zero_iff (p : Equiv.Perm (Word W)) (x : Word W) : Equiv.swap (p 0) 0 (p x) = 0 ↔ x = 0 := by
  rw [Equiv.swap_apply_eq_iff, Equiv.swap_apply_right, p.injective.eq_iff]

theorem xform1Unstated_eq_zero_iff (hW : W = 64) (a b c : Nat) (x : Word W) :
    xform1Unstated a b c x = 0#W ↔ x = 0#W :=
  (setWidth_eq_zero_iff hW.ge _).trans ((swap_perm_eq_zero_iff _ _).trans (setWidth_eq_zero_iff hW.le x))

end

/-- A one-word configuration has 64-bit words (R9). -/
theorem wide_of_one_word {cfg : Config} (hR : cfg.R = 2) : cfg.W = 64 := by
  obtain ⟨hW, -, hnarrow, -⟩ := cfg.spec
  omega

/-- D9: whatever `XFORM1` is, only 0 gives 0. -/
theorem xform1_eq_zero_iff {cfg : Config} (hR : cfg.R = 2) (x : Word cfg.W) : xform1 cfg x = 0 ↔ x = 0 := by
  obtain ⟨-, -, -, -, ⟨ha, -⟩, ⟨hb, -⟩, ⟨hc, -⟩, -⟩ := cfg.spec
  unfold xform1
  cases cfg.xform1 with
  | lrl => exact xform1Lrl_eq_zero_iff ha hb hc x
  | rlr => exact xform1Rlr_eq_zero_iff ha hb hc x
  | unstated => exact xform1Unstated_eq_zero_iff (wide_of_one_word hR) _ _ _ x

section
variable {cfg : Config} {reg : Vector (Word cfg.W) cfg.nReg}

/-- When every word but the oldest is 0, the new word is 0 only if the oldest is too. -/
theorem oldest_eq_zero_of_nextWord (hnext : nextWord cfg reg = 0)
    (hinit : ∀ i (h : i + 1 < cfg.nReg), reg[i] = 0) : oldest cfg reg = 0 := by
  obtain ⟨-, hR, -, -, ⟨ha, -⟩, ⟨hb, -⟩, -⟩ := cfg.spec
  by_cases hR2 : cfg.R = 2
  · rw [nextWord_of_one_word hR2, xform1_eq_zero_iff hR2, newest_eq] at hnext
    simpa only [oldest, Config.nReg, hR2] using hnext
  · have hnewest : newest cfg reg = 0 := hinit 0 (by show 0 + 1 < cfg.R - 1; omega)
    rw [nextWord_of_window (by omega), hnewest] at hnext
    exact (xform_zero_right_eq_zero_iff ha hb _ _).1 hnext

/-- R85: the register step gives all zeros only from all zeros. -/
theorem eq_zero_of_srStep_eq_zero (h : ∀ i (hi : i < cfg.nReg), (srStep cfg reg)[i] = 0) :
    ∀ i (hi : i < cfg.nReg), reg[i] = 0 := by
  intro i hi
  have hinit : ∀ i (h : i + 1 < cfg.nReg), reg[i] = 0 := fun i hi => by rw [← srStep_succ cfg reg i hi, h]
  have hnext : nextWord cfg reg = 0 := by rw [← srStep_zero cfg reg cfg.nReg_pos, h]
  by_cases hlast : i + 1 < cfg.nReg
  · exact hinit i hlast
  · obtain rfl : i = cfg.nReg - 1 := by omega
    exact oldest_eq_zero_of_nextWord hnext hinit

theorem srStep_ne_zero (h : ∃ i : Fin cfg.nReg, reg[i] ≠ 0) : ∃ i : Fin cfg.nReg, (srStep cfg reg)[i] ≠ 0 := by
  contrapose! h
  exact fun i => eq_zero_of_srStep_eq_zero (fun j hj => h ⟨j, hj⟩) i i.isLt

end

/-! ## SEEDQ leaves some register word non-zero -/

/-- The table holds `lo` and its complement side by side: they are not both 0. -/
theorem seedU64Narrow_ne_zero (cfg : Config) (hW : cfg.W = 32) (seed : BitVec 64) :
    ∃ i : Fin cfg.nReg, (seedU64Narrow cfg seed).reg[i] ≠ 0 := by
  by_contra! h
  have h0 : seedLo seed = 0 := by
    simpa [seedU64Narrow, seedTable, setWidth_eq_zero_iff hW.ge] using h ⟨0, cfg.nReg_pos⟩
  have h1 : ~~~ seedLo seed = 0 := by
    simpa [seedU64Narrow, seedTable, setWidth_eq_zero_iff hW.ge] using h ⟨1, cfg.one_lt_nReg hW⟩
  simp [h0] at h1

/-- Word 0 is the seed, or all ones when the seed is 0. -/
theorem seedU64Wide_ne_zero (cfg : Config) (hW : cfg.W = 64) (seed : BitVec 64) :
    ∃ i : Fin cfg.nReg, (seedU64Wide cfg seed).reg[i] ≠ 0 := by
  refine ⟨⟨0, cfg.nReg_pos⟩, ?_⟩
  by_cases hseed : seed = 0#64 <;> simp [seedU64Wide, setWidth_eq_zero_iff hW.ge, hseed]

/-- R116 for SEEDQ: one of the two expansions, by the word width. -/
theorem seedU64_ne_zero (cfg : Config) (seed : BitVec 64) : ∃ i : Fin cfg.nReg, (seedU64 cfg seed).reg[i] ≠ 0 := by
  rcases cfg.spec.1 with hW | hW
  · rw [seedU64_of_narrow hW]
    exact seedU64Narrow_ne_zero cfg hW seed
  · rw [seedU64_of_wide hW]
    exact seedU64Wide_ne_zero cfg hW seed

/-! ## The non-degeneracy invariant -/

theorem nonDegenerate_of_not_valid {s : State} (h : s.valid = false) : s.NonDegenerate := fun hv => by simp [h] at hv

/-- Clocking never makes the register all zero, seeding never leaves it so, and DUMP does not write it. -/
theorem exec_keeps_nonDegenerate {i : Instr} {s t : State} (hs : s.NonDegenerate) (h : exec i s = .next t) :
    t.NonDegenerate := by
  intro _
  rcases exec_next_cases h with
    ⟨-, hv, rfl⟩ | ⟨din, -, rfl⟩ | ⟨seed, -, rfl⟩ | ⟨-, hv, rfl⟩ | ⟨-, hv, rfl⟩ | ⟨-, hv, rfl⟩
  · exact srStep_ne_zero (hs hv)
  · exact zeroEscape_ne_zero s.cfg _
  · exact seedU64_ne_zero s.cfg seed
  · exact srStep_ne_zero (hs hv)
  · exact srStep_ne_zero (hs hv)
  · exact hs hv

/-- R22, for one event of the port: reset clears `valid`, so only a command has something to keep. -/
theorem step_keeps_nonDegenerate {s t : State} (hs : s.NonDegenerate) (h : step s = .next t) : t.NonDegenerate := by
  rcases step_next_cases h with ⟨-, rfl⟩ | ⟨_, -, rfl⟩ | ⟨_, _, rest, _, -, -, hx⟩
  · exact hs
  · exact nonDegenerate_of_not_valid rfl
  · exact exec_keeps_nonDegenerate (s := { s with pending := rest }) hs hx

/-- Settles O41: an event that is a command keeps the invariant by the register step and the seeding, any
other by `valid`. -/
theorem stepKeepsNonDegeneracy : Obligations.StepKeepsNonDegeneracy := by
  unfold Obligations.StepKeepsNonDegeneracy
  exact fun _ _ => step_keeps_nonDegenerate

/-- Settles O42: the invariant asks nothing while `valid` is 0. -/
theorem resetIsNonDegenerate : Obligations.ResetIsNonDegenerate := by
  unfold Obligations.ResetIsNonDegenerate
  exact ⟨nonDegenerate_of_not_valid (afterReset_valid resetConfig []),
    fun cfg p => nonDegenerate_of_not_valid (afterReset_valid cfg p)⟩

/-! ## What a step does not read -/

/-- No meaning reads the last response. -/
theorem exec_ignores_rsp (i : Instr) (s : State) (r : Response s.cfg.busBits) : exec i { s with rsp := r } = exec i s := by
  cases i <;> rfl

/-- While `valid` is 0 no meaning reads the words: seeding replaces them, the others are refused. -/
theorem exec_ignores_gen_of_unseeded {s : State} (hv : s.valid = false) (i : Instr) (g : GenState s.cfg.W s.cfg.nReg) :
    exec i { s with gen := g } = exec i s := by
  have hrefused {j : Instr} (hj : j = .clock ∨ j = .next32 ∨ j = .next64 ∨ j = .dump) :
      exec j { s with gen := g } = exec j s :=
    (exec_refused_of_unseeded (s := { s with gen := g }) hv hj).trans (exec_refused_of_unseeded hv hj).symm
  cases i with
  | clock => exact hrefused (by simp)
  | seedb din => rfl
  | seedq seed => rfl
  | next32 => exact hrefused (by simp)
  | next64 => exact hrefused (by simp)
  | dump => exact hrefused (by simp)

/-- The port adds no reader of the words, `valid` or the response: while the host has an event, the step depends on them
only as far as the command it runs does. -/
theorem step_congr_of_exec {s : State} {g : GenState s.cfg.W s.cfg.nReg} {v : Bool} {r : Response s.cfg.busBits}
    (hp : s.pending ≠ [])
    (hx : ∀ i rest, exec i { s with gen := g, valid := v, rsp := r, pending := rest } =
      exec i { s with pending := rest }) :
    step { s with gen := g, valid := v, rsp := r } = step s := by
  rcases step_cases s with ⟨hp', -⟩ | ⟨rest, hp', -⟩ | ⟨cmd, din, rest, i, hp', hd, -⟩ | ⟨cmd, din, rest, hp', hd, -⟩
  · exact absurd hp' hp
  · exact (step_of_reset (s := { s with gen := g, valid := v, rsp := r }) hp').trans (step_of_reset hp').symm
  · calc step { s with gen := g, valid := v, rsp := r }
        = exec i { s with gen := g, valid := v, rsp := r, pending := rest } := step_of_command hp' hd
      _ = exec i { s with pending := rest } := hx i rest
      _ = step s := (step_of_command hp' hd).symm
  · exact (step_of_reserved (s := { s with gen := g, valid := v, rsp := r }) hp' hd).trans
      (step_of_reserved hp' hd).symm

theorem step_ignores_rsp {s : State} (hp : s.pending ≠ []) (r : Response s.cfg.busBits) :
    step { s with rsp := r } = step s :=
  step_congr_of_exec (g := s.gen) (v := s.valid) hp fun i rest => exec_ignores_rsp i { s with pending := rest } r

theorem step_ignores_gen_of_unseeded {s : State} (hv : s.valid = false) (hp : s.pending ≠ [])
    (g : GenState s.cfg.W s.cfg.nReg) : step { s with gen := g } = step s :=
  step_congr_of_exec (v := s.valid) (r := s.rsp) hp fun i rest =>
    exec_ignores_gen_of_unseeded (s := { s with pending := rest }) hv i g

/-! ## What a run does not depend on -/

/-- Equal first steps make equal runs. -/
theorem run_congr_of_step {s t : State} (h : step s = step t) (k : Nat) :
    Host.Core.run core (k + 1) s = Host.Core.run core (k + 1) t := by
  simp [Host.Core.run, core, h]

/-- Settles O44: the first step already drops the old response. -/
theorem equalStatesHaveEqualFutures : Obligations.EqualStatesHaveEqualFutures := by
  unfold Obligations.EqualStatesHaveEqualFutures
  exact fun k _ r hp => run_congr_of_step (step_ignores_rsp hp r) k

/-- The view of an unseeded state shows none of its words. -/
theorem hostView_of_unseeded {s : State} (hv : s.valid = false) (g : GenState s.cfg.W s.cfg.nReg) :
    State.hostView { s with gen := g } = s.hostView := by
  simp [State.hostView, hv]

/-- Until the host presents something the state stays as it is; from its first event on the two runs are one. -/
theorem outcomeView_run_of_unseeded {s : State} (hv : s.valid = false) (g : GenState s.cfg.W s.cfg.nReg) (k : Nat) :
    outcomeView (Host.Core.run core k { s with gen := g }) = outcomeView (Host.Core.run core k s) := by
  induction k with
  | zero => exact congrArg Except.ok (hostView_of_unseeded hv g)
  | succ k ih =>
    by_cases hp : s.pending = []
    · rw [run_of_next (step_of_nothing_pending (s := { s with gen := g }) hp), run_of_next (step_of_nothing_pending hp), ih]
    · rw [run_congr_of_step (step_ignores_gen_of_unseeded hv hp g)]

/-- Settles O45, by induction on the number of steps. -/
theorem unseededWordsAreUnobservable : Obligations.UnseededWordsAreUnobservable := by
  unfold Obligations.UnseededWordsAreUnobservable
  exact fun k _ g hv => outcomeView_run_of_unseeded hv g k

/-! ## The state after reset -/

/-- Settles O15, from the fields of `State.afterReset`. -/
theorem resetStateAsTheSpecSays : Obligations.ResetStateAsTheSpecSays := by
  unfold Obligations.ResetStateAsTheSpecSays
  exact ⟨afterReset_valid resetConfig [], afterReset_rsp resetConfig [], afterReset_pending resetConfig [],
    afterReset_cfg resetConfig [], fun cfg => ⟨afterReset_valid cfg [], afterReset_rsp cfg [], afterReset_cfg cfg []⟩⟩

end Sys2Proof.Machine
end

section
/-! PROOFS. Memory (20_memory.md): the layout of the input bus (R42), the SEEDB operand and its size (R43), and the
commands that can be repeated (R45). -/

/-! ## The operand on the input bus -/

namespace Sys2Proof

/-- R42: the decoder drops the bits of `din` that the operation does not select. -/
theorem decode_congr_of_withOperand {cfg : Config} {op : Op} {din din' : BitVec cfg.busBits}
    (h : op.withOperand cfg din = op.withOperand cfg din') : decode cfg op.byte din = decode cfg op.byte din' := by
  rw [decode_byte, decode_byte, h]

/-- R42: the four commands without an operand. -/
theorem decode_ignores_din {cfg : Config} {cmd : Byte} (hcmd : cmd = 0x01 ∨ cmd = 0x04 ∨ cmd = 0x05 ∨ cmd = 0x06)
    (din din' : BitVec cfg.busBits) : decode cfg cmd din = decode cfg cmd din' := by
  obtain ⟨hclock, -, -, hnext32, hnext64, hdump⟩ := op_bytes
  rcases hcmd with rfl | rfl | rfl | rfl
  · exact hclock ▸ decode_congr_of_withOperand (op := .clock) rfl
  · exact hnext32 ▸ decode_congr_of_withOperand (op := .next32) rfl
  · exact hnext64 ▸ decode_congr_of_withOperand (op := .next64) rfl
  · exact hdump ▸ decode_congr_of_withOperand (op := .dump) rfl

theorem decode_seedb_byte (cfg : Config) (din : BitVec cfg.busBits) : decode cfg 0x02 din = .ok (.seedb din.toNat) := by
  obtain ⟨-, hseedb, -⟩ := op_bytes
  exact hseedb ▸ decode_byte cfg .seedb din

theorem decode_seedq_byte (cfg : Config) (din : BitVec cfg.busBits) :
    decode cfg 0x03 din = .ok (.seedq (din.extractLsb' 0 64)) := by
  obtain ⟨-, -, hseedq, -⟩ := op_bytes
  exact hseedq ▸ decode_byte cfg .seedq din

theorem busToBytes_injective (cfg : Config) : Function.Injective (busToBytes cfg) := by
  intro din din' h
  apply BitVec.eq_of_toNat_eq
  rw [← bufferValue_busToBytes, ← bufferValue_busToBytes, h]

/-- R8's narrowest bus, that of `V96`, `V64A` and `V64B`, has 128 bits. -/
theorem Variant.le_busBits (v : Variant) (op : CombineOp) : 128 ≤ (v.config op).busBits := by
  cases v <;> simp [Config.busBits, Variant.cfg, Variant.row]

end Sys2Proof

namespace Sys2Proof.Machine

/-- The operand read from the value of a bus is that bus, cut into bytes. -/
@[simp] theorem seedOperand_toNat (cfg : Config) (din : BitVec cfg.busBits) :
    seedOperand cfg din.toNat = busToBytes cfg din := by
  rw [seedOperand, BitVec.ofNat_toNat, BitVec.setWidth_eq]

/-- R43: every buffer is presented by the bus that carries its value. -/
theorem busToBytes_surjective (cfg : Config) : Function.Surjective (busToBytes cfg) :=
  fun buf => ⟨_, seedOperand_bufferValue buf⟩

/-- R42: word `i` of the operand is `din[W·i+W-1 : W·i]`. -/
theorem bufferWord_busToBytes (cfg : Config) (din : BitVec cfg.busBits) (i : Nat) :
    bufferWord cfg (busToBytes cfg din) i = din.extractLsb' (cfg.W * i) cfg.W := by
  apply BitVec.eq_of_toNat_eq
  rw [bufferWord_toNat, bufferValue_busToBytes, BitVec.extractLsb'_toNat, Nat.shiftRight_eq_div_pow]

/-- R42: bits of the operand's number at and above the bus width change nothing. -/
theorem seedOperand_mod (cfg : Config) (n : Nat) : seedOperand cfg (n % 2 ^ cfg.busBits) = seedOperand cfg n :=
  bufferValue_injective (by simp)

/-- Settles O8: the bytes and words of the bus, what the decoder reads of it, and its width for the rows of R8. -/
theorem inputBusLayout : Obligations.InputBusLayout := by
  unfold Obligations.InputBusLayout
  refine ⟨fun cfg din => ⟨decode_seedb_byte cfg din, ?_⟩, decode_seedq_byte,
    fun _ din din' _ hcmd => decode_ignores_din hcmd din din', Variant.le_busBits⟩
  rw [seedOperand_toNat]
  exact ⟨busToBytes_getElem cfg din, fun i _ => bufferWord_busToBytes cfg din i, bufferValue_busToBytes cfg din⟩

/-! ## SEEDB on any operand -/

/-- Settles O49: the length is in the type, bus and buffer determine each other, and neither SEEDB nor any other
meaning tests an operand. -/
theorem seedbOperandHasExactlyTheBusSize : Obligations.SeedbOperandHasExactlyTheBusSize := by
  unfold Obligations.SeedbOperandHasExactlyTheBusSize
  refine ⟨fun cfg buf => ?_, fun cfg => ⟨busToBytes_injective cfg, busToBytes_surjective cfg⟩,
    fun cfg buf => ⟨decide_eq_true (bufferValue_lt buf), seedOperand_bufferValue buf⟩,
    fun s buf => ⟨_, exec_seedb (bufferValue buf) s⟩, fun s i r h => ?_⟩
  · rw [Vector.length_toList]
    exact cfg.busBytes_eq
  · exact (exec_refused_cases h).1

/-- Settles O50: SEEDB reads its number only through the operand of the instance. -/
theorem seedbReadsOnlyTheBus : Obligations.SeedbReadsOnlyTheBus := by
  unfold Obligations.SeedbReadsOnlyTheBus
  intro s n
  refine ⟨?_, _, exec_seedb n s⟩
  rw [exec_seedb, exec_seedb, seedOperand_mod]

/-! ## Repeating a command -/

/-- R45: DUMP changes nothing that it reads. -/
theorem exec_dump_idempotent {s t : State} (h : exec .dump s = .next t) : exec .dump t = .next t := by
  obtain ⟨hv, rfl⟩ := whenSeeded_next_iff.1 h
  exact whenSeeded_of_valid hv _

/-- R45: SEEDB reads nothing of the state but the configuration, which it keeps. -/
theorem exec_seedb_idempotent {din : Nat} {s t : State} (h : exec (.seedb din) s = .next t) :
    exec (.seedb din) t = .next t := by
  cases (exec_seedb din s).symm.trans h
  exact exec_seedb din _

/-- R45: SEEDQ reads nothing of the state but the configuration, which it keeps. -/
theorem exec_seedq_idempotent {seed : BitVec 64} {s t : State} (h : exec (.seedq seed) s = .next t) :
    exec (.seedq seed) t = .next t := by
  cases (exec_seedq seed s).symm.trans h
  exact exec_seedq seed _

/-- Settles O39, command by command. -/
theorem dumpAndSeedingAreIdempotent : Obligations.DumpAndSeedingAreIdempotent := by
  unfold Obligations.DumpAndSeedingAreIdempotent
  rintro s t i (rfl | ⟨din, rfl⟩ | ⟨seed, rfl⟩) h
  · exact exec_dump_idempotent h
  · exact exec_seedb_idempotent h
  · exact exec_seedq_idempotent h

end Sys2Proof.Machine
end

section
/-! PROOFS. Encoding (30_encoding.md): the opcode map (R60, R61, R64), decode and encode against each other (R61, R67), the
command port (R72), and the assembler (R67, R68). -/

/-! ## The opcode map -/

namespace Sys2Proof

/-- R61: the decoder matches the whole byte, then takes the operand from the bus. -/
theorem decode_eq_ok_iff_toNat {cfg : Config} {cmd : Byte} {din : BitVec cfg.busBits} {i : Instr} :
    decode cfg cmd din = .ok i ↔ cmd.toNat = i.op.byte.toNat ∧ i.op.withOperand cfg din = i := by
  rw [BitVec.toNat_inj]
  constructor
  · intro h
    obtain ⟨op, -, rfl⟩ := decode_eq_ok_iff.1 h
    exact ⟨byte_of_decode h, by rw [withOperand_op]⟩
  · rintro ⟨rfl, hi⟩
    rw [decode_byte, hi]

/-- R64: the reserved bytes are 0x00 and those above the six of the map. -/
theorem decodeOp_eq_none_iff (cmd : Byte) : decodeOp cmd = none ↔ cmd.toNat = 0 ∨ 7 ≤ cmd.toNat := by
  rw [decodeOp_eq]
  split_ifs <;> simp <;> omega

/-- Settles O4: each byte is that of its operation, which takes its operand from the bus; the last is above the map. -/
theorem sixCommandWordsDecode : Obligations.SixCommandWordsDecode := by
  unfold Obligations.SixCommandWordsDecode
  exact ⟨decode_byte resetConfig .clock 0, decode_byte resetConfig .seedb 0x80, decode_byte resetConfig .seedq 1234,
    decode_byte resetConfig .next32 0, decode_byte resetConfig .next64 0, decode_byte resetConfig .dump 0,
    decode_eq_error_iff.2 ((decodeOp_eq_none_iff _).2 (by decide))⟩

end Sys2Proof

namespace Sys2Proof.Machine

/-- R61's operand column for SEEDB: `buf[j] = din[8j+7:8j]`. -/
theorem seedOperand_toNat_getElem? (cfg : Config) (din : BitVec cfg.busBits) {j : Nat} (hj : j < cfg.busBytes) :
    (seedOperand cfg din.toNat)[j]? = some (din.extractLsb' (8 * j) 8) := by
  rw [seedOperand_toNat, Vector.getElem?_eq_getElem hj, busToBytes_getElem]

/-- R61's result column for the commands that answer no data: CLOCK and the two of seeding. -/
theorem rsp_of_exec_no_data {i : Instr} {s t : State} (hi : i.op = .clock ∨ i.op = .seedb ∨ i.op = .seedq)
    (h : exec i s = .next t) : t.rsp = .done := by
  rcases exec_next_cases h with ⟨-, -, rfl⟩ | ⟨_, -, rfl⟩ | ⟨_, -, rfl⟩ | ⟨rfl, -⟩ | ⟨rfl, -⟩ | ⟨rfl, -⟩
  · rfl
  · rfl
  · rfl
  · simp [Instr.op] at hi
  · simp [Instr.op] at hi
  · simp [Instr.op] at hi

/-- R61's result column for NEXT32: a 32-bit word on `dout`. -/
theorem rsp_of_exec_next32 {s t : State} (h : exec .next32 s = .next t) :
    ∃ v : BitVec 64, v.toNat < 2 ^ 32 ∧ t.rsp = .dout v := by
  obtain ⟨-, rfl⟩ := whenSeeded_next_iff.1 h
  refine ⟨_, ?_, rfl⟩
  rw [out32_toNat]
  exact Nat.mod_lt _ (by decide)

theorem rsp_of_exec_next64 {s t : State} (h : exec .next64 s = .next t) : ∃ v, t.rsp = .dout v := by
  obtain ⟨-, rfl⟩ := whenSeeded_next_iff.1 h
  exact ⟨_, rfl⟩

theorem rsp_of_exec_dump {s t : State} (h : exec .dump s = .next t) : ∃ v, t.rsp = .sout v := by
  obtain ⟨-, rfl⟩ := whenSeeded_next_iff.1 h
  exact ⟨_, rfl⟩

/-- Settles O5: the decoder by the whole byte and its operand, row by row, and the response of each command. -/
theorem decoderIsTheOpcodeMap : Obligations.DecoderIsTheOpcodeMap := by
  unfold Obligations.DecoderIsTheOpcodeMap
  refine ⟨fun cfg cmd din => ?_, fun s t => ?_⟩
  · refine ⟨?_, fun v => ?_, fun _ => seedOperand_toNat_getElem? cfg din, fun seed => ?_, ?_, ?_, ?_, ?_⟩
    · exact decode_eq_ok_iff_toNat.trans (and_iff_left rfl)
    · exact decode_eq_ok_iff_toNat.trans (and_congr_right' (by simp [Instr.op, Op.withOperand, eq_comm]))
    · exact decode_eq_ok_iff_toNat.trans (and_congr_right' (by simp [Instr.op, Op.withOperand, eq_comm]))
    · exact decode_eq_ok_iff_toNat.trans (and_iff_left rfl)
    · exact decode_eq_ok_iff_toNat.trans (and_iff_left rfl)
    · exact decode_eq_ok_iff_toNat.trans (and_iff_left rfl)
    · exact decode_eq_error_iff.trans (decodeOp_eq_none_iff cmd)
  · exact ⟨rsp_of_exec_no_data (.inl rfl), fun _ => rsp_of_exec_no_data (.inr (.inl rfl)),
      fun _ => rsp_of_exec_no_data (.inr (.inr rfl)), rsp_of_exec_next32, rsp_of_exec_next64, rsp_of_exec_dump⟩

end Sys2Proof.Machine

/-! ## Decode and encode -/

namespace Sys2Proof

/-- The bus is wide enough for the SEEDQ seed (R9's last constraint), so zero-extending the seed loses none of it. -/
theorem extractLsb'_setWidth_busBits (cfg : Config) (seed : BitVec 64) :
    (seed.setWidth cfg.busBits).extractLsb' 0 64 = seed := by
  obtain ⟨-, -, -, -, -, -, -, -, hbus⟩ := cfg.spec
  rw [BitVec.extractLsb'_setWidth_of_le (by simpa using hbus), BitVec.extractLsb'_eq_self]

/-- What a command drives on the bus, its operation reads back: SEEDB while the number has no bit beyond the bus, every
other command always. -/
theorem withOperand_operandBus {cfg : Config} {i : Instr} (h : i.wellFormed cfg = true) :
    i.op.withOperand cfg (i.operandBus cfg) = i := by
  cases i with
  | clock => rfl
  | seedb din =>
    have hlt : din < 2 ^ cfg.busBits := of_decide_eq_true h
    simp [Instr.op, Op.withOperand, Instr.operandBus, Nat.mod_eq_of_lt hlt]
  | seedq seed => exact congrArg Instr.seedq (extractLsb'_setWidth_busBits cfg seed)
  | next32 => rfl
  | next64 => rfl
  | dump => rfl

theorem decode_encode {cfg : Config} {i : Instr} (h : i.wellFormed cfg = true) :
    decode cfg (encode cfg i).1 (encode cfg i).2 = .ok i := by
  rw [encode, decode_byte, withOperand_operandBus h]

/-- Settles O6: a command's byte decodes to its operation, which reads back what the command drives on the bus. -/
theorem decodeOfEncodeIsTheCommand : Obligations.DecodeOfEncodeIsTheCommand := by
  unfold Obligations.DecodeOfEncodeIsTheCommand
  exact fun _ _ => decode_encode

/-- SEEDB uses the whole bus: the command read from a bus drives that bus. -/
theorem operandBus_of_decode_seedb {cfg : Config} {cmd : Byte} {din : BitVec cfg.busBits} {i : Instr}
    (h : decode cfg cmd din = .ok i) (hi : i.op = .seedb) : i.operandBus cfg = din := by
  obtain ⟨op, -, rfl⟩ := decode_eq_ok_iff.1 h
  obtain rfl : op = .seedb := by rwa [withOperand_op] at hi
  simp [Op.withOperand, Instr.operandBus]

/-- Settles O7: the decoded operand fits the bus, and byte and bus are those it was read from. -/
theorem encodeOfDecodeIsTheWord : Obligations.EncodeOfDecodeIsTheWord := by
  unfold Obligations.EncodeOfDecodeIsTheWord
  exact fun _ _ _ _ h => ⟨Machine.wellFormed_of_decode h, (byte_of_decode h).symm, operandBus_of_decode_seedb h⟩

end Sys2Proof

/-! ## The command port -/

namespace Sys2Proof.Machine

/-- Settles O9: the four cases of a step, by the host's next event. -/
theorem stepRunsTheNextPortEvent : Obligations.StepRunsTheNextPortEvent := by
  unfold Obligations.StepRunsTheNextPortEvent
  exact ⟨fun _ _ _ _ _ => step_of_command, fun _ _ _ _ => step_of_reserved, fun _ _ hp => ⟨_, step_of_reset hp⟩,
    fun _ => step_of_nothing_pending⟩

/-- A command just presented is the next one run, on the state it was presented to. -/
theorem step_present {s : State} {cmd : Byte} {din : Nat} {i : Instr}
    (hd : decode s.cfg cmd (BitVec.ofNat s.cfg.busBits din) = .ok i) : step (present s cmd din) = exec i s :=
  step_of_command (s := present s cmd din) rfl hd

/-- Settles O10: `withFetchWord` presents the pair of the table word. -/
theorem fetchWordIsTheNextCommand : Obligations.FetchWordIsTheNextCommand := by
  unfold Obligations.FetchWordIsTheNextCommand
  exact fun _ _ _ _ hd => step_present hd

/-! ## The assembler -/

/-- R67: the pair of a well-formed command is the event whose step runs it. -/
theorem step_of_commandEvent {s : State} {i : Instr} {rest : List (PortEvent s.cfg.busBits)}
    (hi : i.wellFormed s.cfg = true) (hp : s.pending = commandEvent s.cfg i :: rest) :
    step s = exec i { s with pending := rest } :=
  step_of_command hp (decode_encode hi)

/-- A line has a buffer exactly when it has the bytes of one. -/
theorem seedBuffer?_eq_none_iff (cfg : Config) (bytes : List Byte) :
    seedBuffer? cfg bytes = none ↔ bytes.length ≠ cfg.busBytes := by
  simp [seedBuffer?]

theorem seedBuffer?_eq_some {cfg : Config} {bytes : List Byte} (h : bytes.length = cfg.busBytes) :
    ∃ buf, seedBuffer? cfg bytes = some buf ∧ buf.toList = bytes :=
  ⟨_, dif_pos h, rfl⟩

/-- A SEEDB line names the command that carries the little-endian value of its bytes. -/
theorem instr?_seedb {cfg : Config} {bytes : List Byte} (h : bytes.length = cfg.busBytes) :
    (AsmCommand.seedb bytes).instr? cfg = some (.seedb (leNat bytes)) := by
  obtain ⟨buf, hbuf, rfl⟩ := seedBuffer?_eq_some h
  simp [AsmCommand.instr?, hbuf, bufferValue]

theorem instr?_seedb_eq_none_iff (cfg : Config) (bytes : List Byte) :
    (AsmCommand.seedb bytes).instr? cfg = none ↔ bytes.length ≠ cfg.busBytes := by
  rw [AsmCommand.instr?, Option.map_eq_none_iff, seedBuffer?_eq_none_iff]

/-- A line names no command with bits beyond the bus: a SEEDB buffer has a value that fits. -/
theorem wellFormed_of_instr? {cfg : Config} {c : AsmCommand} {i : Instr} (h : c.instr? cfg = some i) :
    i.wellFormed cfg = true := by
  cases c with
  | clock =>
    cases h
    rfl
  | seedb bytes =>
    obtain ⟨buf, -, rfl⟩ := Option.map_eq_some_iff.1 h
    exact decide_eq_true (bufferValue_lt buf)
  | seedq seed =>
    cases h
    rfl
  | next32 =>
    cases h
    rfl
  | next64 =>
    cases h
    rfl
  | dump =>
    cases h
    rfl

/-- A command repeated assembles to its event as often; a line of one command is the case of one. -/
theorem mapM_assembleCommand_replicate {cfg : Config} {c : AsmCommand} {i : Instr} (h : c.instr? cfg = some i) (n : Nat) :
    (List.replicate n c).mapM (assembleCommand cfg) = some (List.replicate n (commandEvent cfg i)) := by
  have hc : assembleCommand cfg c = some (commandEvent cfg i) := congrArg (Option.map (commandEvent cfg)) h
  induction n with
  | zero => rfl
  | succ n ih => simp [List.replicate_succ, hc, ih]

theorem assembleLine_command {cfg : Config} {c : AsmCommand} {i : Instr} (h : c.instr? cfg = some i) :
    assembleLine cfg (.command c) = some [commandEvent cfg i] :=
  mapM_assembleCommand_replicate h 1

/-- Settles O47: the commands of each line, and the byte that stands for itself. -/
theorem pseudoInstructionsExpand : Obligations.PseudoInstructionsExpand := by
  unfold Obligations.PseudoInstructionsExpand
  exact fun _ => ⟨fun n _ _ h => mapM_assembleCommand_replicate h n, fun _ => rfl, rfl, rfl, fun _ => rfl, fun _ => rfl,
    rfl, fun _ => rfl⟩

/-- The event of a SEEDB command, written out. -/
theorem commandEvent_seedb (cfg : Config) (din : Nat) :
    commandEvent cfg (.seedb din) = .command 0x02 (BitVec.ofNat cfg.busBits din) := by
  obtain ⟨-, hseedb, -⟩ := op_bytes
  rw [← hseedb]
  rfl

/-- Settles O48: a line's command is well formed, so its event runs it; a SEEDB line names one exactly when a buffer
has its bytes. -/
theorem assembledCommandRuns : Obligations.AssembledCommandRuns := by
  unfold Obligations.AssembledCommandRuns
  refine ⟨fun s c i e rest hc he hp => ?_, fun _ _ _ => assembleLine_command,
    fun cfg bytes => ⟨instr?_seedb_eq_none_iff cfg bytes, fun hlen => ?_⟩⟩
  · obtain rfl : commandEvent s.cfg i = e := by simpa [assembleLine_command hc] using he
    exact step_of_commandEvent (wellFormed_of_instr? hc) hp
  · rw [assembleLine_command (instr?_seedb hlen), commandEvent_seedb]

end Sys2Proof.Machine
end

section
/-! PROOFS. The register engine (40_xorshift_register_engine.md): the transforms (R81, R82, R87), the register step (R80,
R83, R85, R89), its sequence (R90), CLOCK (R84), and who writes what (R91). -/

/-! ## The transforms are linear, hence one to one -/

namespace Sys2Proof.Machine

section
variable {W : Nat}

/-- One round of a transform is linear: the shift distributes over exclusive or. -/
theorem xor_shiftRight_xor (a : Nat) (x x' : Word W) :
    (x ^^^ x') ^^^ ((x ^^^ x') >>> a) = (x ^^^ (x >>> a)) ^^^ (x' ^^^ (x' >>> a)) := by
  rw [BitVec.ushiftRight_xor_distrib]
  ac_rfl

theorem xor_shiftLeft_xor (a : Nat) (x x' : Word W) :
    (x ^^^ x') ^^^ ((x ^^^ x') <<< a) = (x ^^^ (x <<< a)) ^^^ (x' ^^^ (x' <<< a)) := by
  rw [BitVec.shiftLeft_xor_distrib]
  ac_rfl

/-- R81 as rounds: two on `x`, one on `y`. -/
theorem xform_eq_rounds (a b c : Nat) (x y : Word W) :
    xform a b c x y = ((x ^^^ (x >>> a)) ^^^ ((x ^^^ (x >>> a)) <<< b)) ^^^ (y ^^^ (y <<< c)) :=
  BitVec.xor_assoc _ _ _

/-- R87: linear in both words, round by round. -/
theorem xform_xor (a b c : Nat) (x x' y y' : Word W) :
    xform a b c (x ^^^ x') (y ^^^ y') = xform a b c x y ^^^ xform a b c x' y' := by
  simp only [xform_eq_rounds, xor_shiftRight_xor, xor_shiftLeft_xor]
  ac_rfl

theorem xform1Lrl_xor (a b c : Nat) (x x' : Word W) :
    xform1Lrl a b c (x ^^^ x') = xform1Lrl a b c x ^^^ xform1Lrl a b c x' := by
  simp only [xform1Lrl, xor_shiftLeft_xor, xor_shiftRight_xor]

theorem xform1Rlr_xor (a b c : Nat) (x x' : Word W) :
    xform1Rlr a b c (x ^^^ x') = xform1Rlr a b c x ^^^ xform1Rlr a b c x' := by
  simp only [xform1Rlr, xor_shiftLeft_xor, xor_shiftRight_xor]

/-- A linear map of words that sends only 0 to 0 is one to one: equal values have difference 0. -/
theorem injective_of_map_xor {f : Word W → Word W} (hxor : ∀ x x', f (x ^^^ x') = f x ^^^ f x')
    (hzero : ∀ x, f x = 0#W ↔ x = 0#W) : Function.Injective f := by
  intro x x' h
  have hdiff : f (x ^^^ x') = 0#W := by rw [hxor, h, BitVec.xor_self]
  exact BitVec.xor_eq_zero_iff.1 ((hzero _).1 hdiff)

/-- R87: two words with one `y` and one value differ by a word that `XFORM` with `y = 0` maps to 0. -/
theorem xform_injective {a b : Nat} (ha : 0 < a) (hb : 0 < b) (c : Nat) (y : Word W) :
    Function.Injective fun x => xform a b c x y := by
  intro x x' (h : xform a b c x y = xform a b c x' y)
  have hdiff : xform a b c (x ^^^ x') (y ^^^ y) = 0#W := by rw [xform_xor, h, BitVec.xor_self]
  rw [BitVec.xor_self, xform_zero_right_eq_zero_iff ha hb] at hdiff
  exact BitVec.xor_eq_zero_iff.1 hdiff

/-- A permutation of the 64-bit words, one exchange, and two changes of width that change nothing. -/
theorem xform1Unstated_injective (hW : W = 64) (a b c : Nat) : Function.Injective (xform1Unstated (W := W) a b c) := by
  subst hW
  intro x x' h
  simpa [xform1Unstated] using h

end

/-- Settles O18: linear, and one to one on the finitely many words. -/
theorem xformLinearAndBijective : Obligations.XformLinearAndBijective := by
  unfold Obligations.XformLinearAndBijective
  exact fun W a b c => ⟨xform_xor a b c,
    fun ha hb y => Finite.injective_iff_bijective.1 (xform_injective ha hb c y)⟩

/-- D9: the two that R82 writes out because they are linear, the unstated one by its construction. -/
theorem xform1_injective {cfg : Config} (hR : cfg.R = 2) : Function.Injective (xform1 cfg) := by
  obtain ⟨-, -, -, -, ⟨ha, -⟩, ⟨hb, -⟩, ⟨hc, -⟩, -⟩ := cfg.spec
  unfold xform1
  cases cfg.xform1 with
  | lrl => exact injective_of_map_xor (xform1Lrl_xor _ _ _) (xform1Lrl_eq_zero_iff ha hb hc)
  | rlr => exact injective_of_map_xor (xform1Rlr_xor _ _ _) (xform1Rlr_eq_zero_iff ha hb hc)
  | unstated => exact xform1Unstated_injective (wide_of_one_word hR) _ _ _

/-- Settles O19: one to one on the finitely many words, and 0 at 0 only. -/
theorem xform1BijectiveFixingZero : Obligations.Xform1BijectiveFixingZero := by
  unfold Obligations.Xform1BijectiveFixingZero
  exact fun cfg hR => ⟨Finite.injective_iff_bijective.1 (xform1_injective hR), (xform1_eq_zero_iff hR 0).2 rfl,
    fun x => mt (xform1_eq_zero_iff hR x).1⟩

/-! ## The register step is one to one and fixes the all-zero content -/

/-- With every word but the oldest given, the word that enters tells the oldest: by `XFORM`, or by `XFORM1` of the one
word. -/
theorem oldest_eq_of_nextWord_eq {cfg : Config} {reg reg' : Vector (Word cfg.W) cfg.nReg}
    (hnext : nextWord cfg reg = nextWord cfg reg') (hinit : ∀ i (h : i + 1 < cfg.nReg), reg[i] = reg'[i]) :
    oldest cfg reg = oldest cfg reg' := by
  obtain ⟨-, hR, -, -, ⟨ha, -⟩, ⟨hb, -⟩, -⟩ := cfg.spec
  by_cases hR2 : cfg.R = 2
  · rw [nextWord_of_one_word hR2, nextWord_of_one_word hR2] at hnext
    simpa only [oldest, newest_eq, Config.nReg, hR2] using xform1_injective hR2 hnext
  · have hnewest : newest cfg reg = newest cfg reg' := hinit 0 (by show 0 + 1 < cfg.R - 1; omega)
    rw [nextWord_of_window (by omega), nextWord_of_window (by omega), hnewest] at hnext
    exact xform_injective ha hb _ _ hnext

/-- R85: every word but the oldest is still there after the step, and the new word tells the oldest. -/
theorem srStep_injective (cfg : Config) : Function.Injective (srStep cfg) := by
  intro reg reg' h
  have hinit : ∀ i (hi : i + 1 < cfg.nReg), reg[i] = reg'[i] := fun i hi => by
    rw [← srStep_succ cfg reg i hi, ← srStep_succ cfg reg' i hi, h]
  have hnext : nextWord cfg reg = nextWord cfg reg' := by
    rw [← srStep_zero cfg reg cfg.nReg_pos, ← srStep_zero cfg reg' cfg.nReg_pos, h]
  ext1 i hi
  by_cases hlast : i + 1 < cfg.nReg
  · exact hinit i hlast
  · obtain rfl : i = cfg.nReg - 1 := by omega
    exact oldest_eq_of_nextWord_eq hnext hinit

/-- A register has finitely many contents: each is given by its words. -/
theorem finite_register (W n : Nat) : Finite (Vector (Word W) n) :=
  Finite.of_injective (fun reg (i : Fin n) => reg[i]) fun _ _ h => Vector.ext fun i hi => congrFun h ⟨i, hi⟩

theorem srStep_bijective (cfg : Config) : Function.Bijective (srStep cfg) :=
  have := finite_register cfg.W cfg.nReg
  Finite.injective_iff_bijective.1 (srStep_injective cfg)

/-- The word that enters an all-zero register is 0, whichever transform makes it. -/
theorem nextWord_replicate_zero (cfg : Config) : nextWord cfg (Vector.replicate cfg.nReg 0) = 0 := by
  obtain ⟨-, hR, -, -, ⟨ha, -⟩, ⟨hb, -⟩, -⟩ := cfg.spec
  have hnewest : newest cfg (Vector.replicate cfg.nReg 0) = 0 := Vector.getElem_replicate _
  have holdest : oldest cfg (Vector.replicate cfg.nReg 0) = 0 := Vector.getElem_replicate _
  by_cases hR2 : cfg.R = 2
  · rw [nextWord_of_one_word hR2, hnewest, xform1_eq_zero_iff hR2]
  · rw [nextWord_of_window (by omega), hnewest, holdest]
    exact (xform_zero_right_eq_zero_iff ha hb _ _).2 rfl

theorem srStep_replicate_zero (cfg : Config) :
    srStep cfg (Vector.replicate cfg.nReg 0) = Vector.replicate cfg.nReg 0 := by
  ext1 i hi
  cases i with
  | zero => rw [srStep_zero, nextWord_replicate_zero, Vector.getElem_replicate]
  | succ i => rw [srStep_succ, Vector.getElem_replicate, Vector.getElem_replicate]

/-- R85: what is asked of a candidate for the oldest word determines it, for `XFORM` is one to one in its first word. -/
theorem xform_eq_srStep_zero_iff {cfg : Config} (hR : 3 ≤ cfg.R) (hone : 1 < cfg.nReg)
    (reg : Vector (Word cfg.W) cfg.nReg) (x : Word cfg.W) :
    xform cfg.a cfg.b cfg.c x (srStep cfg reg)[1] = (srStep cfg reg)[0]'cfg.nReg_pos ↔ x = oldest cfg reg := by
  obtain ⟨-, -, -, -, ⟨ha, -⟩, ⟨hb, -⟩, -⟩ := cfg.spec
  rw [srStep_succ cfg reg 0 hone, srStep_zero, nextWord_of_window hR]
  exact (xform_injective ha hb cfg.c _).eq_iff

/-- Settles O20: one to one on the finitely many contents, all zeros at all zeros only, and the old words read off. -/
theorem registerStepBijectiveFixingZero : Obligations.RegisterStepBijectiveFixingZero := by
  unfold Obligations.RegisterStepBijectiveFixingZero
  refine fun cfg => ⟨srStep_bijective cfg, srStep_replicate_zero cfg, fun reg hne h => hne ?_, fun hR reg => ⟨?_, ?_⟩⟩
  · exact srStep_injective cfg (h.trans (srStep_replicate_zero cfg).symm)
  · exact fun i hi => (srStep_succ cfg reg i hi).symm
  · exact xform_eq_srStep_zero_iff hR (by show 1 < cfg.R - 1; omega) reg

/-! ## The sequence of the register -/

/-- R90: a word moves one position with each step. -/
theorem srStep_iterate_add (cfg : Config) (reg : Vector (Word cfg.W) cfg.nReg) (t i k : Nat) (h : i + k < cfg.nReg) :
    ((srStep cfg)^[t + k] reg)[i + k] = ((srStep cfg)^[t] reg)[i] := by
  induction k with
  | zero => rfl
  | succ k ih =>
    have hmove : ((srStep cfg)^[t + k + 1] reg)[i + k + 1] = ((srStep cfg)^[t + k] reg)[i + k] := by
      simp only [Function.iterate_succ_apply', srStep_succ]
    exact hmove.trans (ih (by omega))

/-- The word at position `i` was newest `i` steps ago, if the register had stepped that often. -/
theorem srStep_iterate_of_le (cfg : Config) (reg : Vector (Word cfg.W) cfg.nReg) {t i : Nat} (h : i < cfg.nReg)
    (hit : i ≤ t) : ((srStep cfg)^[t] reg)[i] = newest cfg ((srStep cfg)^[t - i] reg) := by
  simpa [newest_eq, Nat.sub_add_cancel hit] using srStep_iterate_add cfg reg (t - i) 0 i (by omega)

/-- Before that it is a seeded word. -/
theorem srStep_iterate_of_ge (cfg : Config) (reg : Vector (Word cfg.W) cfg.nReg) {t i : Nat} (h : i < cfg.nReg)
    (hti : t ≤ i) : ((srStep cfg)^[t] reg)[i] = reg[i - t] := by
  simpa [Nat.sub_add_cancel hti] using srStep_iterate_add cfg reg 0 (i - t) t (by omega)

/-- The word that enters at step `t + 1`. -/
theorem newest_srStep_iterate_succ {cfg : Config} (hR : 3 ≤ cfg.R) (reg : Vector (Word cfg.W) cfg.nReg) (t : Nat) :
    newest cfg ((srStep cfg)^[t + 1] reg) =
      xform cfg.a cfg.b cfg.c (oldest cfg ((srStep cfg)^[t] reg)) (newest cfg ((srStep cfg)^[t] reg)) := by
  rw [Function.iterate_succ_apply', newest_eq, srStep_zero, nextWord_of_window hR]

/-- Settles O21: where each word came from, and for the new word where the oldest, at position `R-2`, came from. -/
theorem registerRecurrence : Obligations.RegisterRecurrence := by
  unfold Obligations.RegisterRecurrence
  intro cfg reg
  dsimp only
  have hlast : cfg.nReg - 1 < cfg.nReg := Nat.sub_lt cfg.nReg_pos Nat.one_pos
  refine ⟨fun t i h => srStep_iterate_of_le cfg reg h, fun t i h hti => srStep_iterate_of_ge cfg reg h hti.le,
    fun hR t ht => ?_, fun hR t ht => ?_⟩
  · have holdest : oldest cfg ((srStep cfg)^[t] reg) = newest cfg ((srStep cfg)^[t - (cfg.R - 2)] reg) :=
      srStep_iterate_of_le cfg reg hlast ht
    rw [newest_srStep_iterate_succ hR, holdest]
  · have holdest : oldest cfg ((srStep cfg)^[t] reg) = reg[cfg.R - 2 - t]'(by show _ < cfg.R - 1; omega) :=
      srStep_iterate_of_ge cfg reg hlast ht.le
    rw [newest_srStep_iterate_succ hR, holdest]

/-! ## The step of each variant -/

/-- The step on the whole register: the new word enters at the front and the oldest falls out at the back. -/
theorem srStep_toList (cfg : Config) (reg : Vector (Word cfg.W) cfg.nReg) :
    (srStep cfg reg).toList = nextWord cfg reg :: reg.toList.dropLast := by
  have hpos := cfg.nReg_pos
  have hlen : (srStep cfg reg).toList.length = (nextWord cfg reg :: reg.toList.dropLast).length := by
    simp [Nat.sub_add_cancel hpos]
  refine List.ext_getElem hlen fun i h h' => ?_
  cases i with
  | zero => simp
  | succ i => simp

/-- The step of a window of at least two words, written out. -/
theorem srStep_eq_of_window {cfg : Config} (hR : 3 ≤ cfg.R) {reg reg' : Vector (Word cfg.W) cfg.nReg}
    (h : reg'.toList = xform cfg.a cfg.b cfg.c (oldest cfg reg) (newest cfg reg) :: reg.toList.dropLast) :
    srStep cfg reg = reg' := by
  rw [← Vector.toList_inj, srStep_toList, nextWord_of_window hR, h]

/-- The step of a register of one word, written out. -/
theorem srStep_eq_of_one_word {cfg : Config} (hR : cfg.R = 2) {reg reg' : Vector (Word cfg.W) cfg.nReg}
    (h : reg'.toList = xform1 cfg (newest cfg reg) :: reg.toList.dropLast) : srStep cfg reg = reg' := by
  rw [← Vector.toList_inj, srStep_toList, nextWord_of_one_word hR, h]

theorem xform1_of_lrl {cfg : Config} (h : cfg.xform1 = .lrl) (x : Word cfg.W) :
    xform1 cfg x = xform1Lrl cfg.a cfg.b cfg.c x := by
  rw [xform1, h]

/-- Settles O17: the step by the number of words, with the triple of the row. -/
theorem stepUnrolledPerVariant : Obligations.StepUnrolledPerVariant := by
  unfold Obligations.StepUnrolledPerVariant
  intro op K x q
  refine ⟨?_, ?_, ?_, ?_, ?_, ?_, ?_⟩
  · exact fun h r0 r1 r2 => srStep_eq_of_window (cfg := ⟨_, h⟩) (by decide : 3 ≤ 4) rfl
  · exact fun h r0 r1 r2 r3 => srStep_eq_of_window (cfg := ⟨_, h⟩) (by decide : 3 ≤ 5) rfl
  · exact fun h r0 r1 r2 r3 r4 => srStep_eq_of_window (cfg := ⟨_, h⟩) (by decide : 3 ≤ 6) rfl
  · exact fun h r0 r1 r2 r3 r4 r5 => srStep_eq_of_window (cfg := ⟨_, h⟩) (by decide : 3 ≤ 7) rfl
  · exact fun h r0 r1 => srStep_eq_of_window (cfg := ⟨_, h⟩) (by decide : 3 ≤ 3) rfl
  · exact fun h r0 => ⟨srStep_eq_of_one_word (cfg := ⟨_, h⟩) rfl rfl, fun hx => xform1_of_lrl (cfg := ⟨_, h⟩) hx r0⟩
  · exact fun h r0 => ⟨srStep_eq_of_one_word (cfg := ⟨_, h⟩) rfl rfl, fun hx => xform1_of_lrl (cfg := ⟨_, h⟩) hx r0⟩

/-! ## CLOCK, and the frame of every command -/

theorem decode_clock_byte (cfg : Config) (din : BitVec cfg.busBits) : decode cfg 0x01 din = .ok .clock := by
  obtain ⟨hclock, -⟩ := op_bytes
  exact hclock ▸ decode_byte cfg .clock din

/-- Settles O16: the next state of CLOCK is `clock` of the words, which is one step of the register and one of the
counter. -/
theorem clockStepsRegisterAndCounterOnce : Obligations.ClockStepsRegisterAndCounterOnce := by
  unfold Obligations.ClockStepsRegisterAndCounterOnce
  refine ⟨decode_clock_byte, fun s hv => exec_refused_of_unseeded hv (.inl rfl), fun s hv =>
    ⟨clock s.cfg s.gen, whenSeeded_of_valid hv _, weylStep_toNat s.cfg s.gen.ctr, srStep_succ s.cfg s.gen.reg,
      fun hR => ?_, fun hR hx => ?_⟩⟩
  · exact (srStep_zero s.cfg s.gen.reg s.cfg.nReg_pos).trans (nextWord_of_window hR s.gen.reg)
  · exact (srStep_zero s.cfg s.gen.reg s.cfg.nReg_pos).trans
      ((nextWord_of_one_word hR s.gen.reg).trans (xform1_of_lrl hx _))

/-- Settles O43: the six meanings that complete, each with the clause of its command. -/
theorem commandsWriteOnlyTheirOwnState : Obligations.CommandsWriteOnlyTheirOwnState := by
  unfold Obligations.CommandsWriteOnlyTheirOwnState
  intro i s t h
  rcases exec_next_cases h with
    ⟨rfl, -, rfl⟩ | ⟨din, rfl, rfl⟩ | ⟨seed, rfl, rfl⟩ | ⟨rfl, -, rfl⟩ | ⟨rfl, -, rfl⟩ | ⟨rfl, -, rfl⟩
  · exact ⟨_, _, _, rfl, fun _ => ⟨rfl, rfl⟩, nofun, nofun, nofun⟩
  · exact ⟨_, _, _, rfl, by simp, nofun, fun _ hi => by cases hi; exact ⟨rfl, rfl⟩, nofun⟩
  · exact ⟨_, _, _, rfl, by simp, nofun, nofun, fun _ hi => by cases hi; exact ⟨rfl, rfl⟩⟩
  · exact ⟨_, _, _, rfl, fun _ => ⟨rfl, rfl⟩, nofun, nofun, nofun⟩
  · exact ⟨_, _, _, rfl, fun _ => ⟨rfl, rfl⟩, nofun, nofun, nofun⟩
  · exact ⟨_, _, _, rfl, by simp, fun _ => ⟨rfl, rfl⟩, nofun, nofun⟩

end Sys2Proof.Machine
end

section
/-! PROOFS. The Weyl counter stage (41_weyl_counter_stage.md): the closed form and the period of the counter (R103), the
period of the whole state (R105). `K` is odd, so `2^W` is the least period of the counter; the rest follows by
Mathlib's facts about least periods, for the two parts of a state never meet (R102). -/

namespace Sys2Proof.Machine

open Function

/-! ## The period of the counter -/

theorem coprime_K (cfg : Config) : Nat.Coprime (2 ^ cfg.W) cfg.K := by
  obtain ⟨-, -, -, -, -, -, -, ⟨-, -, hodd⟩, -⟩ := cfg.spec
  exact (Nat.coprime_two_left.2 (Nat.odd_iff.2 hodd)).pow_left _

/-- The closed form of R103. -/
theorem weylStep_iterate_toNat (cfg : Config) (t : Nat) (ctr : Word cfg.W) :
    ((weylStep cfg)^[t] ctr).toNat = (ctr.toNat + t * cfg.K) % 2 ^ cfg.W := by
  induction t with
  | zero => simp [Nat.mod_eq_of_lt ctr.isLt]
  | succ t ih => rw [iterate_succ_apply', weylStep_toNat, ih, Nat.mod_add_mod, Nat.succ_mul, Nat.add_assoc]

/-- The counter is back when `2^W` divides `t * K`, which it does only where it divides `t`, `K` being odd. -/
theorem isPeriodicPt_weylStep_iff (cfg : Config) (t : Nat) (ctr : Word cfg.W) :
    IsPeriodicPt (weylStep cfg) t ctr ↔ 2 ^ cfg.W ∣ t := by
  have hback : (ctr.toNat + t * cfg.K) % 2 ^ cfg.W = ctr.toNat % 2 ^ cfg.W ↔ 2 ^ cfg.W ∣ t * cfg.K :=
    Nat.add_modEq_left_iff
  rw [Nat.mod_eq_of_lt ctr.isLt, ← weylStep_iterate_toNat, BitVec.toNat_inj] at hback
  exact hback.trans (coprime_K cfg).dvd_mul_right

theorem minimalPeriod_weylStep (cfg : Config) (ctr : Word cfg.W) : minimalPeriod (weylStep cfg) ctr = 2 ^ cfg.W :=
  eq_of_forall_dvd fun t => by rw [← isPeriodicPt_iff_minimalPeriod_dvd, isPeriodicPt_weylStep_iff]

/-- R102: the counter runs as if there were no register. -/
theorem clock_iterate_ctr (cfg : Config) (t : Nat) (g : GenState cfg.W cfg.nReg) :
    ((clock cfg)^[t] g).ctr = (weylStep cfg)^[t] g.ctr := by
  rw [clock_iterate]

/-- Settles O22: within the least period of the counter its words differ, and so do the states that hold them. -/
theorem counterClosedFormAndPeriod : Obligations.CounterClosedFormAndPeriod := by
  unfold Obligations.CounterClosedFormAndPeriod
  intro cfg g
  have hdistinct : ∀ t u, t < 2 ^ cfg.W → u < 2 ^ cfg.W →
      ((clock cfg)^[t] g).ctr = ((clock cfg)^[u] g).ctr → t = u := by
    intro t u ht hu h
    rw [← minimalPeriod_weylStep cfg g.ctr] at ht hu
    rw [clock_iterate_ctr, clock_iterate_ctr] at h
    exact (iterate_eq_iterate_iff_of_lt_minimalPeriod ht hu).1 h
  refine ⟨fun t => ?_, hdistinct, ?_, fun t u ht hu h => hdistinct t u ht hu (congrArg GenState.ctr h)⟩
  · rw [clock_iterate_ctr, weylStep_iterate_toNat]
  · rw [clock_iterate_ctr]
    exact (isPeriodicPt_weylStep_iff cfg _ g.ctr).2 dvd_rfl

/-! ## The period of the whole state -/

/-- A state is back when its register and its counter are. -/
theorem isPeriodicPt_clock_iff (cfg : Config) (t : Nat) (g : GenState cfg.W cfg.nReg) :
    IsPeriodicPt (clock cfg) t g ↔ IsPeriodicPt (srStep cfg) t g.reg ∧ IsPeriodicPt (weylStep cfg) t g.ctr := by
  rw [IsPeriodicPt, IsFixedPt, clock_iterate]
  exact Iff.of_eq (GenState.mk.injEq ..)

theorem minimalPeriod_clock (cfg : Config) (g : GenState cfg.W cfg.nReg) :
    minimalPeriod (clock cfg) g = Nat.lcm (minimalPeriod (srStep cfg) g.reg) (2 ^ cfg.W) :=
  eq_of_forall_dvd fun t => by
    rw [← isPeriodicPt_iff_minimalPeriod_dvd, isPeriodicPt_clock_iff, isPeriodicPt_weylStep_iff,
      isPeriodicPt_iff_minimalPeriod_dvd, Nat.lcm_dvd_iff]

/-- The maximal register period of R105 is odd: a register has at least one bit. -/
theorem odd_registerPeriod (cfg : Config) : Odd (2 ^ (cfg.nReg * cfg.W) - 1) := by
  have hW : 0 < cfg.W := by rcases cfg.spec.1 with h | h <;> omega
  have heven : Even (2 ^ (cfg.nReg * cfg.W)) := even_two.pow_of_ne_zero (Nat.mul_pos cfg.nReg_pos hW).ne'
  exact Nat.Even.sub_odd Nat.one_le_two_pow heven odd_one

/-- Settles O23: the least periods of the two parts by their least common multiple, and an odd number coprime to
`2^W`. -/
theorem wholeStatePeriod : Obligations.WholeStatePeriod := by
  unfold Obligations.WholeStatePeriod
  exact fun cfg g => ⟨minimalPeriod_clock cfg g, odd_registerPeriod cfg,
    ((Nat.coprime_two_right.2 (odd_registerPeriod cfg)).pow_right _).lcm_eq_mul⟩

end Sys2Proof.Machine
end

section
/-! PROOFS. Seeding (42_prng_seeding_logic.md): that it reads no previous state (R117, R118) and leaves no
all-zero register (R116), SEEDB on the bytes of its buffer (R111, R112, R119), and the two expansions of SEEDQ (R113 to R115). -/

namespace Sys2Proof.Machine

/-! ## Both seeding commands -/

/-- Settles O28: the next state is built from the configuration and the operand alone. -/
theorem seedingIgnoresThePreviousState : Obligations.SeedingIgnoresThePreviousState := by
  unfold Obligations.SeedingIgnoresThePreviousState
  exact fun s _ _ _ =>
    ⟨fun din => ⟨_, exec_seedb din s, (exec_seedb din _).trans (exec_seedb din s).symm⟩,
      fun seed => ⟨_, exec_seedq seed s, (exec_seedq seed _).trans (exec_seedq seed s).symm⟩⟩

/-- Settles O29: SEEDB ends in the zero escape, and either expansion of SEEDQ has a non-zero register word. -/
theorem seedingEstablishesNonDegeneracy : Obligations.SeedingEstablishesNonDegeneracy := by
  unfold Obligations.SeedingEstablishesNonDegeneracy
  refine ⟨fun s t din h => ?_, fun s t seed h => ?_⟩
  · cases (exec_seedb din s).symm.trans h
    exact zeroEscape_ne_zero s.cfg _
  · cases (exec_seedq seed s).symm.trans h
    exact seedU64_ne_zero s.cfg seed

end Sys2Proof.Machine

/-! ## Little-endian values of words -/

namespace Sys2Proof

/-- A little-endian value as the sum of its bytes (20_memory.md R41); a byte beyond the end counts as 0. -/
theorem leNat_take_eq_sum (n : Nat) (xs : List Byte) :
    leNat (xs.take n) = ∑ k ∈ Finset.range n, (xs.getD k 0).toNat * 2 ^ (8 * k) := by
  induction n generalizing xs with
  | zero => simp
  | succ n ih =>
    cases xs with
    | nil => simp
    | cons b bs =>
      have hshift : ∀ k, 2 ^ (8 * (k + 1)) = 256 * 2 ^ (8 * k) := fun k => by
        rw [mul_add, pow_add, mul_comm]
        norm_num
      rw [List.take_succ_cons, leNat_cons, ih, Finset.sum_range_succ', Finset.mul_sum, add_comm]
      simp [hshift, mul_left_comm]

theorem leNat_replicate_zero (n : Nat) : leNat (List.replicate n 0x00) = 0 := by
  induction n with
  | zero => rfl
  | succ n ih => rw [List.replicate_succ, leNat_cons, ih, show (0x00 : Byte).toNat = 0 from rfl]

/-- Bytes `0xFF` make the greatest value of their length. -/
theorem leNat_replicate_ff (n : Nat) : leNat (List.replicate n 0xFF) = 256 ^ n - 1 := by
  induction n with
  | zero => rfl
  | succ n ih =>
    have hpos : 0 < 256 ^ n := by positivity
    rw [List.replicate_succ, leNat_cons, ih, pow_succ, show (0xFF : Byte).toNat = 255 from rfl]
    omega

theorem Config.pow_wordBytes (c : Config) : 256 ^ c.wordBytes = 2 ^ c.W := by
  conv_rhs => rw [c.eight_dvd, pow_mul]
  norm_num

/-- The buffer is the register words and the counter word. -/
theorem Config.busBytes_eq_add (c : Config) : c.busBytes = c.nReg * c.wordBytes + c.wordBytes := by
  have hR : c.R = c.nReg + 1 := (Nat.sub_add_cancel (Nat.one_le_of_lt c.spec.2.1)).symm
  conv_lhs => rw [c.busBytes_eq, hR, Nat.succ_mul]

end Sys2Proof

namespace Sys2Proof.Machine

variable {cfg : Config}

/-- The bytes that make up word `i` of a buffer (R111). -/
def wordSlice (cfg : Config) (buf : SeedBuffer cfg) (i : Nat) : List Byte :=
  (buf.toList.drop (i * cfg.wordBytes)).take cfg.wordBytes

/-- A word has room for the value of its bytes. -/
theorem bufferWord_toNat_eq_leNat (buf : SeedBuffer cfg) (i : Nat) :
    (bufferWord cfg buf i).toNat = leNat (wordSlice cfg buf i) := by
  rw [bufferWord, BitVec.toNat_ofNat, wordSlice, leNat_take, cfg.pow_wordBytes, Nat.mod_mod]

/-- R111: the word as a sum over the bytes of the buffer. -/
theorem bufferWord_toNat_eq_sum (buf : SeedBuffer cfg) (i : Nat) :
    (bufferWord cfg buf i).toNat =
      ∑ k ∈ Finset.range cfg.wordBytes, (buf.toList.getD (i * cfg.wordBytes + k) 0).toNat * 2 ^ (8 * k) := by
  rw [bufferWord_toNat_eq_leNat, wordSlice, leNat_take_eq_sum]
  simp only [List.getD_eq_getElem?_getD, List.getElem?_drop]

theorem bufferWord_eq_zero_iff (buf : SeedBuffer cfg) (i : Nat) : bufferWord cfg buf i = 0 ↔
    ∑ k ∈ Finset.range cfg.wordBytes, (buf.toList.getD (i * cfg.wordBytes + k) 0).toNat * 2 ^ (8 * k) = 0 := by
  rw [← bufferWord_toNat_eq_sum, ← BitVec.toNat_inj]
  exact Eq.congr_right BitVec.toNat_zero

/-! ## SEEDB -/

theorem zeroEscape_replicate_zero (W n : Nat) :
    zeroEscape (Vector.replicate n (0 : Word W)) = Vector.replicate n (maxWord W) := by
  rcases zeroEscape_cases (Vector.replicate n (0 : Word W)) with ⟨-, h⟩ | ⟨⟨i, hi⟩, -⟩
  · rw [h]
    ext1 i hi
    simp
  · simp at hi

theorem zeroEscape_of_ne {W n : Nat} {reg : Vector (Word W) n} (h : reg ≠ Vector.replicate n 0) :
    zeroEscape reg = reg := by
  rcases zeroEscape_cases reg with ⟨hz, -⟩ | ⟨-, hz⟩
  · exact absurd (Vector.ext fun i hi => by simpa using hz ⟨i, hi⟩) h
  · exact hz

/-- The register words of a buffer before the zero escape (R111). -/
def registerWords (cfg : Config) (buf : SeedBuffer cfg) : Vector (Word cfg.W) cfg.nReg :=
  Vector.ofFn fun i => bufferWord cfg buf i

theorem seedBytes_reg_eq (buf : SeedBuffer cfg) : (seedBytes cfg buf).reg = zeroEscape (registerWords cfg buf) := rfl

@[simp] theorem registerWords_getElem (buf : SeedBuffer cfg) (i : Nat) (hi : i < cfg.nReg) :
    (registerWords cfg buf)[i] = bufferWord cfg buf i := by
  simp [registerWords]

theorem registerWords_eq_zero_iff (buf : SeedBuffer cfg) :
    registerWords cfg buf = Vector.replicate cfg.nReg 0 ↔ ∀ i < cfg.nReg, bufferWord cfg buf i = 0 := by
  simp [Vector.ext_iff]

/-- R112 when every register word of the buffer is 0. -/
theorem seedBytes_reg_of_zero {buf : SeedBuffer cfg} (h : ∀ i < cfg.nReg, bufferWord cfg buf i = 0) (i : Nat)
    (hi : i < cfg.nReg) : (seedBytes cfg buf).reg[i] = maxWord cfg.W := by
  simp only [seedBytes_reg_eq, (registerWords_eq_zero_iff buf).2 h, zeroEscape_replicate_zero, Vector.getElem_replicate]

/-- R112 when some register word of the buffer is not 0. -/
theorem seedBytes_reg_of_ne_zero {buf : SeedBuffer cfg} (h : ¬ ∀ i < cfg.nReg, bufferWord cfg buf i = 0) (i : Nat)
    (hi : i < cfg.nReg) : (seedBytes cfg buf).reg[i] = bufferWord cfg buf i := by
  simp only [seedBytes_reg_eq, zeroEscape_of_ne (mt (registerWords_eq_zero_iff buf).1 h), registerWords_getElem]

/-- Settles O24: each word by the sum of its bytes, through the two cases of the zero escape. -/
theorem seedbLoadsTheBuffer : Obligations.SeedbLoadsTheBuffer := by
  unfold Obligations.SeedbLoadsTheBuffer
  intro s din
  dsimp only
  refine ⟨_, exec_seedb din s, bufferWord_toNat_eq_sum _ _, fun h i hi => ?_, fun h i hi => ?_⟩
  · rw [seedBytes_reg_of_zero fun j hj => (bufferWord_eq_zero_iff _ j).2 (h j hj), BitVec.toNat_allOnes]
  · rw [seedBytes_reg_of_ne_zero fun hz => h fun j hj => (bufferWord_eq_zero_iff _ j).1 (hz j hj),
      bufferWord_toNat_eq_sum]

/-! ## Which buffers give the same state -/

/-- Words are told apart by their bytes. -/
theorem bufferWord_eq_iff (p q : SeedBuffer cfg) (i : Nat) :
    bufferWord cfg p i = bufferWord cfg q i ↔ wordSlice cfg p i = wordSlice cfg q i := by
  rw [← BitVec.toNat_inj, bufferWord_toNat_eq_leNat, bufferWord_toNat_eq_leNat]
  exact ⟨leNat_injective (by simp [wordSlice]), congrArg leNat⟩

/-- The first `k` words are told apart by their bytes, the words lying one after the other. -/
theorem forall_bufferWord_eq_iff (p q : SeedBuffer cfg) (k : Nat) :
    (∀ i < k, bufferWord cfg p i = bufferWord cfg q i) ↔
      p.toList.take (k * cfg.wordBytes) = q.toList.take (k * cfg.wordBytes) := by
  induction k with
  | zero => simp
  | succ k ih =>
    rw [Nat.forall_lt_succ_right, ih, bufferWord_eq_iff, Nat.succ_mul, List.take_add, List.take_add]
    exact ⟨fun ⟨hinit, hlast⟩ => congrArg₂ _ hinit hlast, fun h => List.append_inj h (by simp)⟩

/-- The counter word is the rest of the buffer. -/
theorem bufferWord_ctr_eq_iff (p q : SeedBuffer cfg) :
    bufferWord cfg p cfg.nReg = bufferWord cfg q cfg.nReg ↔
      p.toList.drop (cfg.nReg * cfg.wordBytes) = q.toList.drop (cfg.nReg * cfg.wordBytes) := by
  have hrest (buf : SeedBuffer cfg) : wordSlice cfg buf cfg.nReg = buf.toList.drop (cfg.nReg * cfg.wordBytes) :=
    List.take_of_length_le (by rw [List.length_drop, Vector.length_toList, cfg.busBytes_eq_add]; omega)
  rw [bufferWord_eq_iff, hrest, hrest]

theorem registerWords_eq_iff (p q : SeedBuffer cfg) : registerWords cfg p = registerWords cfg q ↔
    p.toList.take (cfg.nReg * cfg.wordBytes) = q.toList.take (cfg.nReg * cfg.wordBytes) := by
  rw [← forall_bufferWord_eq_iff]
  simp [Vector.ext_iff]

/-- A buffer of one byte throughout: its register words are told by one word of that byte. -/
theorem registerWords_replicate {x : Byte} {w : Word cfg.W} (hw : leNat (List.replicate cfg.wordBytes x) = w.toNat) :
    registerWords cfg (Vector.replicate cfg.busBytes x) = Vector.replicate cfg.nReg w := by
  ext1 i hi
  have hfits : (i + 1) * cfg.wordBytes ≤ cfg.nReg * cfg.wordBytes := Nat.mul_le_mul_right _ hi
  have hslice : wordSlice cfg (Vector.replicate cfg.busBytes x) i = List.replicate cfg.wordBytes x := by
    rw [wordSlice, Vector.toList_replicate, List.drop_replicate, List.take_replicate, cfg.busBytes_eq_add]
    congr 1
    rw [Nat.succ_mul] at hfits
    omega
  apply BitVec.eq_of_toNat_eq
  simp only [registerWords_getElem, Vector.getElem_replicate, bufferWord_toNat_eq_leNat, hslice, hw]

/-- Register words that are all the word of one byte: every register byte is that byte. -/
theorem registerWords_eq_replicate_iff {x : Byte} {w : Word cfg.W}
    (hw : leNat (List.replicate cfg.wordBytes x) = w.toNat) (buf : SeedBuffer cfg) :
    registerWords cfg buf = Vector.replicate cfg.nReg w ↔
      ∀ y ∈ buf.toList.take (cfg.nReg * cfg.wordBytes), y = x := by
  have hlen : min (cfg.nReg * cfg.wordBytes) cfg.busBytes = cfg.nReg * cfg.wordBytes := by
    rw [cfg.busBytes_eq_add]
    omega
  rw [← registerWords_replicate hw, registerWords_eq_iff, Vector.toList_replicate, List.take_replicate, hlen,
    List.eq_replicate_iff, List.length_take, Vector.length_toList]
  exact and_iff_right hlen

theorem registerWords_eq_zero_iff_bytes (buf : SeedBuffer cfg) : registerWords cfg buf = Vector.replicate cfg.nReg 0 ↔
    ∀ y ∈ buf.toList.take (cfg.nReg * cfg.wordBytes), y = 0x00 :=
  registerWords_eq_replicate_iff ((leNat_replicate_zero _).trans BitVec.toNat_zero.symm) buf

theorem registerWords_eq_max_iff_bytes (buf : SeedBuffer cfg) :
    registerWords cfg buf = Vector.replicate cfg.nReg (maxWord cfg.W) ↔
      ∀ y ∈ buf.toList.take (cfg.nReg * cfg.wordBytes), y = 0xFF :=
  registerWords_eq_replicate_iff (by rw [leNat_replicate_ff, cfg.pow_wordBytes, BitVec.toNat_allOnes]) buf

/-- The zero escape confuses all zeros with all ones, and nothing else (R119). -/
theorem zeroEscape_eq_iff {r r' : Vector (Word cfg.W) cfg.nReg} : zeroEscape r = zeroEscape r' ↔
    r = r' ∨ (r = Vector.replicate _ 0 ∧ r' = Vector.replicate _ (maxWord cfg.W)) ∨
      (r' = Vector.replicate _ 0 ∧ r = Vector.replicate _ (maxWord cfg.W)) := by
  have hescape := zeroEscape_replicate_zero cfg.W cfg.nReg
  have hother {q : Vector (Word cfg.W) cfg.nReg} := zeroEscape_of_ne (reg := q)
  have hne : Vector.replicate cfg.nReg (maxWord cfg.W) ≠ Vector.replicate cfg.nReg 0 := fun h =>
    maxWord_ne_zero cfg (by simpa only [newest_eq, Vector.getElem_replicate] using congrArg (newest cfg) h)
  generalize Vector.replicate cfg.nReg (maxWord cfg.W) = ones at *
  generalize Vector.replicate cfg.nReg (0 : Word cfg.W) = zeros at *
  by_cases h : r = zeros <;> by_cases h' : r' = zeros
  · simp [h, h']
  · simp [h, h', hescape, hother h', eq_comm, hne]
  · simp [h, h', hescape, hother h]
  · simp [h, h', hother h, hother h']

/-- SEEDB of two buffers gives one state exactly when it gives one register and one counter. -/
theorem exec_seedb_bufferValue_eq_iff (s : State) (b1 b2 : SeedBuffer s.cfg) :
    exec (.seedb (bufferValue b1)) s = exec (.seedb (bufferValue b2)) s ↔
      zeroEscape (registerWords s.cfg b1) = zeroEscape (registerWords s.cfg b2) ∧
        bufferWord s.cfg b1 s.cfg.nReg = bufferWord s.cfg b2 s.cfg.nReg := by
  rw [exec_seedb, exec_seedb, seedOperand_bufferValue, seedOperand_bufferValue]
  simp [seedBytes, registerWords]

/-- A buffer is its first bytes and the others. -/
theorem seedBuffer_eq_iff (m : Nat) (p q : SeedBuffer cfg) :
    p = q ↔ p.toList.take m = q.toList.take m ∧ p.toList.drop m = q.toList.drop m := by
  refine ⟨fun h => by simp [h], fun ⟨htake, hdrop⟩ => Vector.toList_inj.1 ?_⟩
  rw [← List.take_append_drop m p.toList, htake, hdrop, List.take_append_drop]

/-- Settles O25: the counter bytes always agree, and the register bytes agree or are the pair that the zero escape
confuses. -/
theorem seedbInjectiveButForOnePair : Obligations.SeedbInjectiveButForOnePair := by
  unfold Obligations.SeedbInjectiveButForOnePair
  intro s b1 b2
  rw [exec_seedb_bufferValue_eq_iff, zeroEscape_eq_iff, registerWords_eq_iff, registerWords_eq_zero_iff_bytes,
    registerWords_eq_zero_iff_bytes, registerWords_eq_max_iff_bytes, registerWords_eq_max_iff_bytes,
    bufferWord_ctr_eq_iff, seedBuffer_eq_iff (s.cfg.nReg * s.cfg.wordBytes) b1 b2]
  simp only [or_and_right, and_assoc, eq_comm (a := b2.toList.drop _)]

/-! ## SEEDQ on 32-bit words -/

theorem seedLo_toNat (seed : BitVec 64) : (seedLo seed).toNat = seed.toNat % 2 ^ 32 := by
  simp [seedLo]

theorem seedHi_toNat (seed : BitVec 64) : (seedHi seed).toNat = seed.toNat / 2 ^ 32 := by
  have := seed.isLt
  simp [seedHi, Nat.shiftRight_eq_div_pow]
  omega

/-- R113: the table by its index. -/
theorem seedTable_toNat (seed : BitVec 64) (i : Nat) : (seedTable seed i).toNat =
    if i % 4 = 0 then seed.toNat % 2 ^ 32 else if i % 4 = 1 then 2 ^ 32 - 1 - seed.toNat % 2 ^ 32
    else if i % 4 = 2 then seed.toNat / 2 ^ 32 else 2 ^ 32 - 1 - seed.toNat / 2 ^ 32 := by
  have hcases : i % 4 = 0 ∨ i % 4 = 1 ∨ i % 4 = 2 ∨ i % 4 = 3 := by omega
  rcases hcases with h | h | h | h <;> simp [seedTable, h, seedLo_toNat, seedHi_toNat]

section
variable (hW : cfg.W = 32) (seed : BitVec 64)
include hW

theorem seedU64_reg_of_narrow (i : Nat) (hi : i < cfg.nReg) :
    ((seedU64 cfg seed).reg[i]).toNat = (seedTable seed i).toNat := by
  rw [seedU64_of_narrow hW]
  simp only [seedU64Narrow, Vector.getElem_ofFn, BitVec.toNat_setWidth_of_le hW.ge]

theorem seedU64_ctr_of_narrow : (seedU64 cfg seed).ctr.toNat = (qctr32Word cfg seed).toNat := by
  rw [seedU64_of_narrow hW]
  exact BitVec.toNat_setWidth_of_le hW.ge

end

/-- R113: words 0 and 2 are the halves of the seed. -/
theorem seedU64_injective_of_narrow (hW : cfg.W = 32) (hR : 4 ≤ cfg.R) : Function.Injective (seedU64 cfg) := by
  intro seed seed' h
  have hword (i : Nat) (hi : i < cfg.nReg) : (seedTable seed i).toNat = (seedTable seed' i).toNat := by
    rw [← seedU64_reg_of_narrow hW seed i hi, ← seedU64_reg_of_narrow hW seed' i hi, h]
  have hlo := hword 0 cfg.nReg_pos
  have hhi := hword 2 (by show 2 < cfg.R - 1; omega)
  simp only [seedTable_toNat, Nat.reduceMod, Nat.reduceEqDiff, OfNat.ofNat_ne_zero, if_true, if_false] at hlo hhi
  apply BitVec.eq_of_toNat_eq
  omega

/-- SEEDQ of two seeds gives one state only if it gives the same words. -/
theorem seedU64_eq_of_exec_seedq_eq {s : State} {seed seed' : BitVec 64}
    (h : exec (.seedq seed) s = exec (.seedq seed') s) : seedU64 s.cfg seed = seedU64 s.cfg seed' := by
  rw [exec_seedq, exec_seedq] at h
  simpa using h

/-- Settles O26: register and counter by the table, and the two halves of the seed read back from it. -/
theorem seedqExpandsOnNarrowWords : Obligations.SeedqExpandsOnNarrowWords := by
  unfold Obligations.SeedqExpandsOnNarrowWords
  refine ⟨decode_seedq_byte, fun s seed hW => ⟨_, exec_seedq seed s, fun i hi => ?_, fun hq => ?_, fun hq => ?_,
    fun hq => ?_⟩, fun s seed seed' hW hR h => seedU64_injective_of_narrow hW hR (seedU64_eq_of_exec_seedq_eq h)⟩
  · rw [seedU64_reg_of_narrow hW, seedTable_toNat]
  · rw [seedU64_ctr_of_narrow hW, qctr32Word, hq, seedTable_toNat]
  · rw [seedU64_ctr_of_narrow hW, qctr32Word, hq]
    rfl
  · rw [seedU64_ctr_of_narrow hW, qctr32Word, hq, seedHi_toNat]

/-! ## SEEDQ on 64-bit words -/

section
variable (hW : cfg.W = 64) (seed : BitVec 64)
include hW

/-- R115: every register word is the seed, but word 0 for seed 0. -/
theorem seedU64_reg_of_wide (i : Nat) (hi : i < cfg.nReg) :
    ((seedU64 cfg seed).reg[i]).toNat = if i = 0 ∧ seed = 0 then 2 ^ 64 - 1 else seed.toNat := by
  rw [seedU64_of_wide hW]
  simp only [seedU64Wide, Vector.getElem_ofFn, BitVec.toNat_setWidth_of_le hW.ge]
  split
  · exact BitVec.toNat_allOnes
  · rfl

/-- R115: the counter does not see the substituted word. -/
theorem seedU64_ctr_of_wide : (seedU64 cfg seed).ctr.toNat = 2 ^ 64 - 1 - seed.toNat := by
  rw [seedU64_of_wide hW, ← BitVec.toNat_not]
  exact BitVec.toNat_setWidth_of_le hW.ge

end

/-- Settles O27: word 0 and the second word by the form of the register, the counter by the seed alone. -/
theorem seedqExpandsOnWideWords : Obligations.SeedqExpandsOnWideWords := by
  unfold Obligations.SeedqExpandsOnWideWords
  refine ⟨decode_seedq_byte, fun s seed hW => ⟨_, exec_seedq seed s, ?_, ?_, fun h => ?_,
    seedU64_ctr_of_wide hW seed⟩⟩
  · obtain ⟨-, hR, -, hwide, -⟩ := s.cfg.spec
    have := hwide hW
    omega
  · rw [seedU64_reg_of_wide hW]
    simp [← BitVec.toNat_inj]
  · rw [seedU64_reg_of_wide hW]
    simp

end Sys2Proof.Machine
end

section
/-! PROOFS. The output combiner (43_prng_output_combiner.md): `COMB` (R130), NEXT32 (R131) and NEXT64 (R132, R133), the one
clock step of an output (R134 to R136), and what the operator does and does not change (R137). -/

/-! ## COMB -/

namespace Sys2Proof.Machine

section
variable {W : Nat} (u v : Word W)

/-- R130: `ADD` wraps at the word. -/
theorem comb_add_toNat : (comb .add u v).toNat = (u.toNat + v.toNat) % 2 ^ W := BitVec.toNat_add u v

theorem comb_add_toNat_of_width {n : Nat} (hW : W = n) : (comb .add u v).toNat = (u.toNat + v.toNat) % 2 ^ n :=
  hW ▸ comb_add_toNat u v

theorem comb_xor : comb .xor u v = u ^^^ v := rfl

theorem comb_xor_getLsbD (i : Nat) : (comb .xor u v).getLsbD i = (u.getLsbD i ^^ v.getLsbD i) := BitVec.getLsbD_xor

theorem comb_comm (op : CombineOp) : comb op u v = comb op v u := by
  cases op with
  | add => exact BitVec.add_comm u v
  | xor => exact BitVec.xor_comm u v

theorem comb_zero (op : CombineOp) : comb op u 0 = u := by
  cases op with
  | add => exact BitVec.add_zero u
  | xor => exact BitVec.xor_zero

end

/-- Settles O30, operator by operator. -/
theorem combineOperators : Obligations.CombineOperators := by
  unfold Obligations.CombineOperators
  exact fun _ u v => ⟨comb_add_toNat u v, comb_xor_getLsbD u v, fun op => ⟨comb_comm u v op, comb_zero u op⟩⟩

/-! ## One clock step for each output -/

theorem decode_next32_byte (cfg : Config) (din : BitVec cfg.busBits) : decode cfg 0x04 din = .ok .next32 := by
  obtain ⟨-, -, -, hnext32, -⟩ := op_bytes
  exact hnext32 ▸ decode_byte cfg .next32 din

theorem decode_next64_byte (cfg : Config) (din : BitVec cfg.busBits) : decode cfg 0x05 din = .ok .next64 := by
  obtain ⟨-, -, -, -, hnext64, -⟩ := op_bytes
  exact hnext64 ▸ decode_byte cfg .next64 din

theorem decode_dump_byte (cfg : Config) (din : BitVec cfg.busBits) : decode cfg 0x06 din = .ok .dump := by
  obtain ⟨-, -, -, -, -, hdump⟩ := op_bytes
  exact hdump ▸ decode_byte cfg .dump din

theorem exec_clock_of_valid {s : State} (hv : s.valid = true) :
    exec .clock s = .next { s with gen := clock s.cfg s.gen, rsp := .done } := whenSeeded_of_valid hv _

theorem exec_next32_of_valid {s : State} (hv : s.valid = true) :
    exec .next32 s = .next { s with gen := clock s.cfg s.gen, rsp := .dout (out32 s.cfg (clock s.cfg s.gen)) } :=
  whenSeeded_of_valid hv _

theorem exec_next64_of_valid {s : State} (hv : s.valid = true) :
    exec .next64 s = .next { s with gen := clock s.cfg s.gen, rsp := .dout (out64 s.cfg (clock s.cfg s.gen)) } :=
  whenSeeded_of_valid hv _

theorem exec_dump_of_valid {s : State} (hv : s.valid = true) :
    exec .dump s = .next { s with rsp := .sout (soutOf s.cfg s.gen) } := whenSeeded_of_valid hv _

/-- R134: the result of NEXT32 is the low half of that of NEXT64, on either word width. -/
theorem out32_toNat_eq_out64_mod (cfg : Config) (g : GenState cfg.W cfg.nReg) :
    (out32 cfg g).toNat = (out64 cfg g).toNat % 2 ^ 32 := by
  rcases cfg.spec.1 with hW | hW
  · rw [out32_toNat, out64_of_narrow cfg g hW, Nat.mul_add_mod_self_right]
  · rw [out32_toNat, out64_of_wide cfg g hW]

theorem out32_eq_low_half_out64 (cfg : Config) (g : GenState cfg.W cfg.nReg) :
    out32 cfg g = ((out64 cfg g).extractLsb' 0 32).setWidth 64 := by
  apply BitVec.eq_of_toNat_eq
  rw [out32_toNat_eq_out64_mod, BitVec.toNat_setWidth_of_le (by decide), BitVec.extractLsb'_toNat, Nat.shiftRight_zero]

/-- Settles O35: the three commands write the same words, and the results are `out32` and `out64` of them. -/
theorem oneClockPerOutput : Obligations.OneClockPerOutput := by
  unfold Obligations.OneClockPerOutput
  exact fun s hv => ⟨_, _, exec_clock_of_valid hv, exec_next32_of_valid hv, exec_next64_of_valid hv,
    out32_toNat_eq_out64_mod s.cfg _⟩

/-- R135: the counter is not back after one step, for its period is not 1. -/
theorem clock_ne_self (cfg : Config) (g : GenState cfg.W cfg.nReg) : clock cfg g ≠ g := by
  intro h
  have hdvd : 2 ^ cfg.W ∣ 1 := (isPeriodicPt_weylStep_iff cfg 1 g.ctr).1 (congrArg GenState.ctr h)
  have hW : cfg.W ≠ 0 := by rcases cfg.spec.1 with h | h <;> omega
  exact (Nat.one_lt_two_pow hW).ne' (Nat.dvd_one.1 hdvd)

/-- The three commands that clock leave the same state but for the response. -/
theorem eq_clock_of_exec {i : Instr} {s t : State} (hi : i = .clock ∨ i = .next32 ∨ i = .next64)
    (h : exec i s = .next t) : ∃ r, t = { s with gen := clock s.cfg s.gen, rsp := r } := by
  rcases hi with rfl | rfl | rfl <;> exact ⟨_, (whenSeeded_next_iff.1 h).2⟩

/-- Only the output commands answer an output word. -/
theorem output_of_rsp_dout {i : Instr} {s t : State} {v : BitVec 64} (h : exec i s = .next t) (hr : t.rsp = .dout v) :
    i = .next32 ∨ i = .next64 := by
  rcases exec_next_cases h with
    ⟨-, -, rfl⟩ | ⟨_, -, rfl⟩ | ⟨_, -, rfl⟩ | ⟨hi, -, -⟩ | ⟨hi, -, -⟩ | ⟨-, -, rfl⟩
  · cases hr
  · cases hr
  · cases hr
  · exact .inl hi
  · exact .inr hi
  · cases hr

/-- Settles O36: who answers an output word, and that a clock step always changes the counter. -/
theorem noPeekWithoutAdvancing : Obligations.NoPeekWithoutAdvancing := by
  unfold Obligations.NoPeekWithoutAdvancing
  refine ⟨fun _ _ _ _ => output_of_rsp_dout, fun s t i hi h => ?_⟩
  obtain ⟨r, rfl⟩ := eq_clock_of_exec hi h
  exact ⟨_, r, rfl, clock_ne_self s.cfg s.gen⟩

/-! ## NEXT32 -/

/-- R131: the low halves give the same sum, for `2^32` divides `2^W`. -/
theorem comb_add_toNat_mod (cfg : Config) (u v : Word cfg.W) :
    (comb .add u v).toNat % 2 ^ 32 = (u.toNat % 2 ^ 32 + v.toNat % 2 ^ 32) % 2 ^ 32 := by
  have hW : 32 ≤ cfg.W := by rcases cfg.spec.1 with h | h <;> omega
  rw [comb_add_toNat, Nat.mod_mod_of_dvd _ (pow_dvd_pow 2 hW), Nat.add_mod]

/-- Settles O32: the value of `out32` on the clocked words, operator by operator. -/
theorem next32ClocksThenCombines : Obligations.Next32ClocksThenCombines := by
  unfold Obligations.Next32ClocksThenCombines
  refine ⟨decode_next32_byte, fun s hv => exec_refused_of_unseeded hv (.inr (.inl rfl)), fun s hv =>
    ⟨out32 s.cfg (clock s.cfg s.gen), exec_next32_of_valid hv, ?_, fun hop => ?_, fun hop => ?_, fun hop => ?_⟩⟩
  · rw [out32_toNat]
    exact Nat.mod_lt _ (by decide)
  · rw [out32_toNat, hop, comb_add_toNat, newest_eq]
  · rw [out32_toNat, hop, comb_xor, newest_eq]
  · rw [out32_toNat, hop, comb_add_toNat_mod, newest_eq]

/-! ## NEXT64 -/

/-- R132: the high half combines the second register word, and no carry of the low half reaches it. -/
theorem out64_toNat_div_of_narrow (cfg : Config) (g : GenState cfg.W cfg.nReg) (hW : cfg.W = 32) :
    (out64 cfg g).toNat / 2 ^ 32 = (comb cfg.op (g.reg[1]'(cfg.one_lt_nReg hW)) g.ctr).toNat := by
  have hlow := (comb cfg.op (newest cfg g.reg) g.ctr).isLt
  rw [out64_of_narrow cfg g hW]
  rw [show (2 : Nat) ^ cfg.W = 2 ^ 32 by rw [hW]] at hlow
  omega

/-- What an output leaves: the words clocked once, and in the low half of the response the combination of the newest word
and the counter. -/
theorem exec_output_next {i : Instr} {s t : State} (hi : i = .next32 ∨ i = .next64) (h : exec i s = .next t) :
    ∃ p : BitVec 64, t = { s with gen := clock s.cfg s.gen, rsp := .dout p } ∧
      p.toNat % 2 ^ 32 =
        (comb s.cfg.op (newest s.cfg (clock s.cfg s.gen).reg) (clock s.cfg s.gen).ctr).toNat % 2 ^ 32 := by
  rcases hi with rfl | rfl
  · refine ⟨_, (whenSeeded_next_iff.1 h).2, ?_⟩
    rw [out32_toNat, Nat.mod_mod]
  · refine ⟨_, (whenSeeded_next_iff.1 h).2, ?_⟩
    rw [← out32_toNat_eq_out64_mod, out32_toNat]

/-- R132: the high half after a clock step is one `K` more than the combination before it: the same word, the next
counter. -/
theorem out64_clock_toNat_div_of_add (cfg : Config) (g : GenState cfg.W cfg.nReg) (hW : cfg.W = 32)
    (hop : cfg.op = .add) : (out64 cfg (clock cfg g)).toNat / 2 ^ 32 =
      ((comb cfg.op (newest cfg g.reg) g.ctr).toNat % 2 ^ 32 + cfg.K) % 2 ^ 32 := by
  have hctr : (clock cfg g).ctr.toNat = (g.ctr.toNat + cfg.K) % 2 ^ 32 := by
    rw [clock_ctr, weylStep_toNat, congrArg (2 ^ ·) hW]
  have hword : (clock cfg g).reg[1]'(cfg.one_lt_nReg hW) = newest cfg g.reg := srStep_succ cfg g.reg 0 _
  rw [out64_toNat_div_of_narrow cfg _ hW, hop, comb_add_toNat_of_width _ _ hW, comb_add_toNat_of_width _ _ hW, hctr,
    hword]
  omega

/-- R132: two outputs in a row under `ADD`. -/
theorem output_then_next64 {s t u : State} {i : Instr} (hi : i = .next32 ∨ i = .next64) (hW : s.cfg.W = 32)
    (hop : s.cfg.op = .add) (ht : exec i s = .next t) (hu : exec .next64 t = .next u) :
    ∃ p q : BitVec 64, t.rsp = .dout p ∧ u.rsp = .dout q ∧
      q.toNat / 2 ^ 32 = (p.toNat % 2 ^ 32 + s.cfg.K) % 2 ^ 32 := by
  obtain ⟨p, rfl, hp⟩ := exec_output_next hi ht
  obtain ⟨-, rfl⟩ := whenSeeded_next_iff.1 hu
  refine ⟨p, _, rfl, rfl, ?_⟩
  rw [hp]
  exact out64_clock_toNat_div_of_add s.cfg (clock s.cfg s.gen) hW hop

/-- Settles O33: the value of `out64` as two halves, the low one that of `out32`. -/
theorem next64NarrowTwoHalves : Obligations.Next64NarrowTwoHalves := by
  unfold Obligations.Next64NarrowTwoHalves
  refine ⟨decode_next64_byte, fun s hv => exec_refused_of_unseeded hv (.inr (.inr (.inl rfl))), fun s hW hv =>
    ⟨out64 s.cfg (clock s.cfg s.gen), exec_next64_of_valid hv, ?_, ?_, fun hop => ?_, fun hop => ?_⟩,
    fun _ _ _ _ hi hW hop _ => output_then_next64 hi hW hop⟩
  · rw [← out32_eq_low_half_out64]
    exact exec_next32_of_valid hv
  · exact srStep_succ s.cfg s.gen.reg 0 _
  · rw [out64_of_narrow _ _ hW, hop, comb_add_toNat_of_width _ _ hW, comb_add_toNat_of_width _ _ hW, newest_eq]
  · rw [out64_of_narrow _ _ hW, hop, comb_xor, comb_xor, newest_eq]

/-- Settles O34: the value of `out64` as one word, its low half that of `out32`. -/
theorem next64WideWholeWord : Obligations.Next64WideWholeWord := by
  unfold Obligations.Next64WideWholeWord
  refine ⟨decode_next64_byte, fun s hv => exec_refused_of_unseeded hv (.inr (.inr (.inl rfl))), fun s hW hv =>
    ⟨out64 s.cfg (clock s.cfg s.gen), exec_next64_of_valid hv, ?_, fun hop => ?_, fun hop => ?_⟩⟩
  · rw [← out32_eq_low_half_out64]
    exact exec_next32_of_valid hv
  · rw [out64_of_wide _ _ hW, hop, comb_add_toNat_of_width _ _ hW, newest_eq]
  · rw [out64_of_wide _ _ hW, hop, comb_xor, newest_eq]

/-! ## A run of outputs, CLOCK and DUMP -/

/-- R136, for one command: all but DUMP clock the words once. -/
theorem step_of_clocking_or_dump {s : State} {cmd : Byte} {din : BitVec s.cfg.busBits}
    {rest : List (PortEvent s.cfg.busBits)} (hv : s.valid = true) (hp : s.pending = .command cmd din :: rest)
    (hcmd : cmd = 0x01 ∨ cmd = 0x04 ∨ cmd = 0x05 ∨ cmd = 0x06) :
    ∃ r, step s = .next
      { s with gen := (clock s.cfg)^[if cmd = 0x06 then 0 else 1] s.gen, rsp := r, pending := rest } := by
  rcases hcmd with rfl | rfl | rfl | rfl
  · exact ⟨_, (step_of_command hp (decode_clock_byte s.cfg din)).trans (exec_clock_of_valid hv)⟩
  · exact ⟨_, (step_of_command hp (decode_next32_byte s.cfg din)).trans (exec_next32_of_valid hv)⟩
  · exact ⟨_, (step_of_command hp (decode_next64_byte s.cfg din)).trans (exec_next64_of_valid hv)⟩
  · exact ⟨_, (step_of_command hp (decode_dump_byte s.cfg din)).trans (exec_dump_of_valid hv)⟩

/-- R136, for a run, by induction on the commands presented. -/
theorem run_of_clocking_or_dump {s : State} (hv : s.valid = true) (rest : List (PortEvent s.cfg.busBits))
    (cs : List (Byte × BitVec s.cfg.busBits)) (hcs : ∀ p ∈ cs, p.1 = 0x01 ∨ p.1 = 0x04 ∨ p.1 = 0x05 ∨ p.1 = 0x06)
    (g : GenState s.cfg.W s.cfg.nReg) (r : Response s.cfg.busBits) :
    ∃ r', Host.Core.run core cs.length
        { s with gen := g, rsp := r, pending := cs.map (fun p => .command p.1 p.2) ++ rest } =
      .next { s with gen := (clock s.cfg)^[(cs.filter (fun p => p.1 ≠ 0x06)).length] g, rsp := r', pending := rest } := by
  induction cs generalizing g r with
  | nil => exact ⟨r, rfl⟩
  | cons p cs ih =>
    obtain ⟨r₁, hstep⟩ := step_of_clocking_or_dump
      (s := { s with gen := g, rsp := r, pending := (p :: cs).map (fun p => .command p.1 p.2) ++ rest })
      hv rfl (hcs p List.mem_cons_self)
    obtain ⟨r', hrun⟩ := ih (fun q hq => hcs q (List.mem_cons_of_mem p hq))
      ((clock s.cfg)^[if p.1 = 0x06 then 0 else 1] g) r₁
    have hcount : ((p :: cs).filter (fun p => p.1 ≠ 0x06)).length =
        (cs.filter (fun p => p.1 ≠ 0x06)).length + if p.1 = 0x06 then 0 else 1 := by
      by_cases h : p.1 = 6#8 <;> simp [h]
    refine ⟨r', (run_of_next hstep cs.length).trans ?_⟩
    rw [hcount, Function.iterate_add_apply]
    exact hrun

/-- Settles O37: the run of the commands presented, from the words and the response that the state holds. -/
theorem mixedCommandsClockOnceEach : Obligations.MixedCommandsClockOnceEach := by
  unfold Obligations.MixedCommandsClockOnceEach
  intro s cs rest hv hcs hp
  have hrun := run_of_clocking_or_dump hv rest cs hcs s.gen s.rsp
  rwa [← hp] at hrun

/-! ## When the operators agree -/

/-- A sum is the digits without their carries, and the carries one place up. -/
theorem add_eq_xor_add_two_mul_and (m n : Nat) : m + n = (m ^^^ n) + 2 * (m &&& n) := by
  induction m using Nat.strong_induction_on generalizing n with
  | _ m ih =>
    rcases Nat.eq_zero_or_pos m with rfl | hm
    · simp
    · have hhigh : m / 2 + n / 2 = (m ^^^ n) / 2 + 2 * ((m &&& n) / 2) := by
        rw [Nat.xor_div_two, Nat.and_div_two]
        exact ih _ (by omega) _
      have hlow : m % 2 + n % 2 = (m ^^^ n) % 2 + 2 * ((m &&& n) % 2) := by
        have hand : (m &&& n) % 2 = m % 2 &&& n % 2 := Nat.and_mod_two_pow (n := 1)
        have hbits : ∀ a < 2, ∀ b < 2, a + b = (a + b) % 2 + 2 * (a &&& b) := by decide
        rw [Nat.xor_mod_two_eq, Nat.add_mod, hand]
        exact hbits _ (Nat.mod_lt m two_pos) _ (Nat.mod_lt n two_pos)
      omega

section
variable {W : Nat} (u v : Word W)

theorem toNat_add_toNat_eq : u.toNat + v.toNat = (u ^^^ v).toNat + 2 * (u &&& v).toNat := by
  rw [BitVec.toNat_xor, BitVec.toNat_and]
  exact add_eq_xor_add_two_mul_and _ _

/-- R137: the two operators differ by the carries. -/
theorem comb_add_eq : comb .add u v = comb .xor u v + (u &&& v) <<< 1 := by
  apply BitVec.eq_of_toNat_eq
  rw [comb_add_toNat, comb_xor, toNat_add_toNat_eq, BitVec.toNat_add, BitVec.toNat_shiftLeft, Nat.shiftLeft_eq, pow_one,
    mul_comm, Nat.add_mod_mod]

theorem comb_add_eq_comb_xor_iff : comb .add u v = comb .xor u v ↔ (u &&& v) <<< 1 = 0 := by
  rw [comb_add_eq]
  exact add_eq_left

/-- Only the top bit is lost in a shift by one place. -/
theorem shiftLeft_one_eq_zero_iff : u <<< 1 = 0 ↔ u.toNat = 0 ∨ u.toNat = 2 ^ (W - 1) := by
  have hlt := u.isLt
  rw [← BitVec.toNat_inj, BitVec.toNat_shiftLeft, Nat.shiftLeft_eq, pow_one, mul_comm]
  cases W with
  | zero =>
    have hzero : u.toNat = 0 := Nat.lt_one_iff.1 hlt
    simp [hzero]
  | succ W =>
    rw [pow_succ'] at hlt ⊢
    rw [Nat.mul_mod_mul_left, Nat.add_sub_cancel]
    show 2 * (u.toNat % 2 ^ W) = 0 ↔ _
    rcases lt_or_ge u.toNat (2 ^ W) with h | h
    · rw [Nat.mod_eq_of_lt h]
      omega
    · rw [Nat.mod_eq_sub_mod h, Nat.mod_eq_of_lt (by omega)]
      omega

theorem comb_add_eq_comb_xor_iff_toNat :
    comb .add u v = comb .xor u v ↔ (u &&& v).toNat = 0 ∨ (u &&& v).toNat = 2 ^ (W - 1) :=
  (comb_add_eq_comb_xor_iff u v).trans (shiftLeft_one_eq_zero_iff _)

end

/-! ## Two instances that differ in the operator -/

/-- The outcomes of two instances that differ in the operator: next states with the same words, `valid` and host's list,
or the same refusal (R137). -/
inductive AgreeButForOp (op : CombineOp) : Result → Result → Prop
  | next (t : State) (r : Response t.cfg.busBits) : AgreeButForOp op (.next t) (.next (State.withOp { t with rsp := r } op))
  | refused (q : Refusal) : AgreeButForOp op (.refused q) (.refused q)

section
variable {op : CombineOp}

theorem AgreeButForOp.exists_of_next {t : State} {o : Result} (h : AgreeButForOp op (.next t) o) :
    ∃ r : Response t.cfg.busBits, o = .next (State.withOp { t with rsp := r } op) := by
  cases h with
  | next _ r => exact ⟨r, rfl⟩

theorem AgreeButForOp.eq_of_refused {q : Refusal} {o : Result} (h : AgreeButForOp op (.refused q) o) :
    o = .refused q := by
  cases h
  rfl

/-- `valid` is the same in both instances. -/
theorem whenSeeded_agree_withOp {s : State} {k k' : Result} (r : Response s.cfg.busBits) (h : AgreeButForOp op k k') :
    AgreeButForOp op (whenSeeded s k) (whenSeeded (State.withOp { s with rsp := r } op) k') := by
  rcases whenSeeded_cases s k with ⟨hv, hk⟩ | ⟨hv, hk⟩
  · rwa [hk, whenSeeded_of_valid (s := State.withOp { s with rsp := r } op) hv]
  · rw [hk, whenSeeded_of_not_valid (s := State.withOp { s with rsp := r } op) hv]
    exact .refused _

/-- R137: only the response of an output depends on the operator. -/
theorem exec_agree_withOp (i : Instr) (s : State) (r : Response s.cfg.busBits) :
    AgreeButForOp op (exec i s) (exec i (State.withOp { s with rsp := r } op)) := by
  cases i with
  | clock => exact whenSeeded_agree_withOp r (.next _ _)
  | seedb din => exact .next _ _
  | seedq seed => exact .next _ _
  | next32 => exact whenSeeded_agree_withOp r (.next _ _)
  | next64 => exact whenSeeded_agree_withOp r (.next _ _)
  | dump =>
    exact whenSeeded_agree_withOp r (.next { s with rsp := .sout (soutOf s.cfg s.gen) } (.sout (soutOf s.cfg s.gen)))

/-- R137, for one event of the port: the decoder and reset do not read the operator. -/
theorem step_agree_withOp (s : State) (r : Response s.cfg.busBits) :
    AgreeButForOp op (step s) (step (State.withOp { s with rsp := r } op)) := by
  rcases step_cases s with ⟨hp, hs⟩ | ⟨rest, hp, hs⟩ | ⟨cmd, din, rest, i, hp, hd, hs⟩ | ⟨cmd, din, rest, hp, hd, hs⟩
  · rw [hs, step_of_nothing_pending (s := State.withOp { s with rsp := r } op) hp]
    exact .next s r
  · rw [hs, step_of_reset (s := State.withOp { s with rsp := r } op) hp]
    exact .next _ _
  · rw [hs, step_of_command (s := State.withOp { s with rsp := r } op) hp hd]
    exact exec_agree_withOp i { s with pending := rest } r
  · rw [hs, step_of_reserved (s := State.withOp { s with rsp := r } op) hp hd]
    exact .refused _

/-- R137, for a run, by induction on the number of steps. -/
theorem run_agree_withOp (k : Nat) (s : State) (r : Response s.cfg.busBits) :
    AgreeButForOp op (Host.Core.run core k s) (Host.Core.run core k (State.withOp { s with rsp := r } op)) := by
  induction k generalizing s with
  | zero => exact .next s r
  | succ k ih =>
    have h := step_agree_withOp (op := op) s r
    cases hs : step s with
    | next t =>
      rw [hs] at h
      obtain ⟨r', ht⟩ := h.exists_of_next
      rw [run_of_next hs, run_of_next ht]
      exact ih t r'
    | fault f => cases f
    | refused q =>
      rw [hs] at h
      rw [run_of_refused hs, run_of_refused h.eq_of_refused]
      exact .refused q

end

/-! ## The functions that read the operator, and those that do not -/

section
variable (cfg : Config) (op : CombineOp)

/-! R137: clocking and seeding read no operator. -/

theorem clock_withOp (g : GenState cfg.W cfg.nReg) : clock (cfg.withOp op) g = clock cfg g := rfl

theorem seedBytes_withOp (buf : SeedBuffer cfg) : seedBytes (cfg.withOp op) buf = seedBytes cfg buf := rfl

theorem seedU64_withOp (seed : BitVec 64) : seedU64 (cfg.withOp op) seed = seedU64 cfg seed := rfl

end

section
variable {cfg : Config} {op op' : CombineOp} {g : GenState cfg.W cfg.nReg}

/-- The result of NEXT32 reads the operator in its one combination only. -/
theorem out32_withOp_congr (h : comb op (newest cfg g.reg) g.ctr = comb op' (newest cfg g.reg) g.ctr) :
    out32 (cfg.withOp op) g = out32 (cfg.withOp op') g :=
  congrArg (fun w : Word cfg.W => doutOf32 (w.setWidth 32)) h

/-- The result of NEXT64 reads the operator in its combination, or its two on 32-bit words. -/
theorem out64_withOp_congr (hlow : comb op (newest cfg g.reg) g.ctr = comb op' (newest cfg g.reg) g.ctr)
    (hhigh : ∀ hW : cfg.W = 32,
      comb op (g.reg[1]'(cfg.one_lt_nReg hW)) g.ctr = comb op' (g.reg[1]'(cfg.one_lt_nReg hW)) g.ctr) :
    out64 (cfg.withOp op) g = out64 (cfg.withOp op') g := by
  apply BitVec.eq_of_toNat_eq
  rcases cfg.spec.1 with hW | hW
  · rw [out64_of_narrow (cfg.withOp op) g hW, out64_of_narrow (cfg.withOp op') g hW]
    exact congrArg₂ (fun u v : Word cfg.W => u.toNat * 2 ^ 32 + v.toNat) (hhigh hW) hlow
  · rw [out64_of_wide (cfg.withOp op) g hW, out64_of_wide (cfg.withOp op') g hW]
    exact congrArg BitVec.toNat hlow

end

/-- Settles O31: the carries of a sum, and what of a result and of a run depends on the operator. -/
theorem operatorsAgreeExactlyWhen : Obligations.OperatorsAgreeExactlyWhen := by
  unfold Obligations.OperatorsAgreeExactlyWhen
  refine ⟨fun _ => toNat_add_toNat_eq, fun _ => comb_add_eq_comb_xor_iff, fun _ => comb_add_eq_comb_xor_iff_toNat,
    fun cfg op => ⟨clock_withOp cfg op, seedBytes_withOp cfg op, seedU64_withOp cfg op⟩, fun cfg g => ?_,
    fun s op cs _ _ => ?_⟩
  · intro same hnewest
    have hlow := (comb_add_eq_comb_xor_iff_toNat _ _).2 hnewest
    exact ⟨out32_withOp_congr hlow, fun hsecond =>
      out64_withOp_congr hlow fun hW => (comb_add_eq_comb_xor_iff_toNat _ _).2 (hsecond hW)⟩
  · have hrun := run_agree_withOp (op := op) cs.length s s.rsp
    exact ⟨fun t ht => (ht ▸ hrun).exists_of_next, fun q hq => (hq ▸ hrun).eq_of_refused⟩

end Sys2Proof.Machine
end

section
/-! PROOFS. State observation (44_state_observation_and_facade.md): DUMP (R150), and SEEDB of what DUMP returned (R151). -/

namespace Sys2Proof.Machine

/-! ## DUMP -/

section
variable {cfg : Config} (g : GenState cfg.W cfg.nReg)

/-- R150: register word `i`, newest first, at `sout[W·i+W-1 : W·i]`. -/
theorem extractLsb'_soutOf_reg (i : Nat) (hi : i < cfg.nReg) :
    (soutOf cfg g).extractLsb' (cfg.W * i) cfg.W = g.reg[i] := by
  have hword := soutOf_word cfg g i (by rw [words_length]; omega)
  simpa [GenState.words, hi] using hword

/-- R150: the counter above all register words. -/
theorem extractLsb'_soutOf_ctr : (soutOf cfg g).extractLsb' (cfg.W * cfg.nReg) cfg.W = g.ctr := by
  have hword := soutOf_word cfg g cfg.nReg (by rw [words_length]; omega)
  simpa [GenState.words] using hword

end

/-- Settles O38: DUMP answers `soutOf` of the words, whose `W`-bit digits are the words. -/
theorem dumpReturnsTheWords : Obligations.DumpReturnsTheWords := by
  unfold Obligations.DumpReturnsTheWords
  exact ⟨decode_dump_byte, fun s hv => exec_refused_of_unseeded hv (by simp), fun s hv =>
    ⟨soutOf s.cfg s.gen, exec_dump_of_valid hv, extractLsb'_soutOf_reg s.gen, extractLsb'_soutOf_ctr s.gen⟩⟩

/-! ## Restoring a dumped state -/

/-- The buffer that a dump presents holds the register words of the dumped state, before the zero escape. -/
theorem registerWords_busToBytes_soutOf {cfg : Config} (g : GenState cfg.W cfg.nReg) :
    registerWords cfg (busToBytes cfg (soutOf cfg g)) = g.reg := by
  ext1 i hi
  rw [registerWords_getElem, bufferWord_busToBytes, extractLsb'_soutOf_reg g i hi]

/-- R151 on the words: the zero escape leaves a register alone that is not all zero. -/
theorem seedBytes_busToBytes_soutOf {cfg : Config} {g : GenState cfg.W cfg.nReg}
    (hg : ∃ i : Fin cfg.nReg, g.reg[i] ≠ 0) : seedBytes cfg (busToBytes cfg (soutOf cfg g)) = g := by
  have hne : g.reg ≠ Vector.replicate cfg.nReg 0 := by
    obtain ⟨i, hi⟩ := hg
    exact fun h => hi (by simp [h])
  have hreg : (seedBytes cfg (busToBytes cfg (soutOf cfg g))).reg = g.reg := by
    rw [seedBytes_reg_eq, registerWords_busToBytes_soutOf, zeroEscape_of_ne hne]
  have hctr : (seedBytes cfg (busToBytes cfg (soutOf cfg g))).ctr = g.ctr := by
    rw [seedBytes_ctr, bufferWord_busToBytes, extractLsb'_soutOf_ctr]
  exact congrArg₂ GenState.mk hreg hctr

/-- R110, R42: a step that runs SEEDB loads what stands on `din`. -/
theorem step_of_seedb_byte {s : State} {din : BitVec s.cfg.busBits} {rest : List (PortEvent s.cfg.busBits)}
    (hp : s.pending = .command 0x02 din :: rest) :
    step s = .next
      { s with gen := seedBytes s.cfg (busToBytes s.cfg din), valid := true, rsp := .done, pending := rest } := by
  rw [step_of_command hp (decode_seedb_byte s.cfg din), exec_seedb, seedOperand_toNat]

/-- R151 for one step: SEEDB of the dump of `s`, whatever words, `valid` and response the instance holds. -/
theorem step_seedb_of_dump {s : State} (hv : s.valid = true) (hs : s.NonDegenerate) (g : GenState s.cfg.W s.cfg.nReg)
    (b : Bool) (r : Response s.cfg.busBits) (rest : List (PortEvent s.cfg.busBits)) :
    step { s with gen := g, valid := b, rsp := r, pending := .command 0x02 (soutOf s.cfg s.gen) :: rest } =
      .next { s with rsp := .done, pending := rest } := by
  rw [hv, step_of_seedb_byte (s := { s with gen := g, valid := b, rsp := r, pending := _ }) rfl]
  simp only [seedBytes_busToBytes_soutOf (hs hv)]

/-- Settles O40: SEEDB reloads the words that DUMP answered, and the next event drops the only difference left, the
response. -/
theorem seedbOfDumpRestoresTheState : Obligations.SeedbOfDumpRestoresTheState := by
  unfold Obligations.SeedbOfDumpRestoresTheState
  intro s hv hs
  refine ⟨soutOf s.cfg s.gen, exec_dump_of_valid hv, fun g b r rest => ?_⟩
  have hstep := step_seedb_of_dump hv hs g b r rest
  refine ⟨hstep, fun hrest k => (run_of_next hstep (k + 1)).trans ?_⟩
  exact run_congr_of_step (step_ignores_rsp (s := { s with pending := rest }) hrest .done) k

end Sys2Proof.Machine
end

section
/-! PROOFS. Exceptions (60_exceptions.md): what a presented command answers (R171, R172, R174), and how a step can stop
(R170, R183). -/

namespace Sys2Proof.Machine

/-! ## The outcomes of one command -/

/-- R171: the bytes 0x01, 0x04, 0x05 and 0x06 spell the four commands that read `valid`. -/
theorem decode_guarded_byte (cfg : Config) {cmd : Byte} (din : BitVec cfg.busBits)
    (hcmd : cmd = 0x01 ∨ cmd = 0x04 ∨ cmd = 0x05 ∨ cmd = 0x06) :
    ∃ i, decode cfg cmd din = .ok i ∧ (i = .clock ∨ i = .next32 ∨ i = .next64 ∨ i = .dump) := by
  rcases hcmd with rfl | rfl | rfl | rfl
  · exact ⟨_, decode_clock_byte cfg din, .inl rfl⟩
  · exact ⟨_, decode_next32_byte cfg din, .inr (.inl rfl)⟩
  · exact ⟨_, decode_next64_byte cfg din, .inr (.inr (.inl rfl))⟩
  · exact ⟨_, decode_dump_byte cfg din, .inr (.inr (.inr rfl))⟩

section
variable {s : State} {cmd : Byte} {din : BitVec s.cfg.busBits} {rest : List (PortEvent s.cfg.busBits)}

/-- R172: a byte outside the opcode map is refused before `valid` is read. -/
theorem step_of_byte_outside_map (hp : s.pending = .command cmd din :: rest)
    (hcmd : ¬ (1 ≤ cmd.toNat ∧ cmd.toNat ≤ 6)) : step s = .refused .reservedCommand :=
  step_of_reserved hp (decode_eq_error_iff.2 ((decodeOp_eq_none_iff cmd).2 (by omega)))

/-- R171, for the event at the port. -/
theorem step_of_guarded_byte_unseeded (hp : s.pending = .command cmd din :: rest)
    (hcmd : cmd = 0x01 ∨ cmd = 0x04 ∨ cmd = 0x05 ∨ cmd = 0x06) (hv : s.valid = false) :
    step s = .refused .unseeded := by
  obtain ⟨i, hd, hi⟩ := decode_guarded_byte s.cfg din hcmd
  exact (step_of_command hp hd).trans (exec_refused_of_unseeded (s := { s with pending := rest }) hv hi)

/-- R117: a seeding command completes at any time. -/
theorem step_of_seeding_byte (hp : s.pending = .command cmd din :: rest) (hcmd : cmd = 0x02 ∨ cmd = 0x03) :
    ∃ t, step s = .next t := by
  rcases hcmd with rfl | rfl
  · exact ⟨_, step_of_seedb_byte hp⟩
  · exact ⟨_, (step_of_command hp (decode_seedq_byte s.cfg din)).trans (exec_seedq _ _)⟩

end

/-- Settles O11: one step for each class of command byte; a step that is refused refuses every longer run. -/
theorem commandOutcomeTable : Obligations.CommandOutcomeTable := by
  unfold Obligations.CommandOutcomeTable
  intro s cmd din rest hp
  have hguarded : cmd.toNat = 1 ∨ cmd.toNat = 4 ∨ cmd.toNat = 5 ∨ cmd.toNat = 6 →
      cmd = 0x01 ∨ cmd = 0x04 ∨ cmd = 0x05 ∨ cmd = 0x06 := by
    simp [← BitVec.toNat_inj]
  refine ⟨fun hcmd => run_of_refused (step_of_byte_outside_map hp hcmd),
    fun hcmd hv => run_of_refused (step_of_guarded_byte_unseeded hp (hguarded hcmd) hv), fun hcmd hv => ?_,
    fun hcmd => step_of_seeding_byte hp (hcmd.imp BitVec.eq_of_toNat_eq BitVec.eq_of_toNat_eq)⟩
  obtain ⟨_, hs⟩ := step_of_clocking_or_dump hv hp (hguarded hcmd)
  exact ⟨_, hs⟩

/-! ## How a step can stop -/

/-- `step_cases` for a step that is refused: a byte that decodes to nothing, or a command that reads `valid` and finds it
0. -/
theorem step_refused_cases {s : State} {r : Refusal} (h : step s = .refused r) :
    (r = .reservedCommand ∧ ∃ cmd din rest, s.pending = .command cmd din :: rest ∧
      decode s.cfg cmd din = .error .reservedCommand) ∨
    (r = .unseeded ∧ s.valid = false ∧ ∃ cmd din rest i, s.pending = .command cmd din :: rest ∧
      decode s.cfg cmd din = .ok i ∧ (i = .clock ∨ i = .next32 ∨ i = .next64 ∨ i = .dump)) := by
  rcases step_cases s with
    ⟨-, hs⟩ | ⟨_, -, hs⟩ | ⟨cmd, din, rest, i, hp, hd, hs⟩ | ⟨cmd, din, rest, hp, hd, hs⟩
  · cases hs.symm.trans h
  · cases hs.symm.trans h
  · obtain ⟨hr, hv, hi⟩ := exec_refused_cases (hs.symm.trans h)
    exact .inr ⟨hr, hv, cmd, din, rest, i, hp, hd, hi⟩
  · cases hs.symm.trans h
    exact .inl ⟨rfl, cmd, din, rest, hp, hd⟩

/-- Settles O12: there is no fault to answer (R170), and a refused step is one of the cases of `step_refused_cases`. -/
theorem stepStopsOnlyByTheTwoRefusals : Obligations.StepStopsOnlyByTheTwoRefusals := by
  unfold Obligations.StepStopsOnlyByTheTwoRefusals
  intro s
  constructor
  · intro f
    cases f
  · intro r h
    exact (step_refused_cases h).imp And.left And.left

end Sys2Proof.Machine
end

section
/-! PROOFS. Reset and hazards (70_reset_and_hazards.md): what reset reads and clears (R190), and the boot rule (R192, R199). -/

/-! ## Reset -/

namespace Sys2Proof.Machine

/-- R190: the reset state is built from the configuration and the host's list alone. -/
theorem step_reset_ignores_instance {s : State} {rest : List (PortEvent s.cfg.busBits)} (hp : s.pending = .reset :: rest)
    (g : GenState s.cfg.W s.cfg.nReg) (v : Bool) (r : Response s.cfg.busBits) :
    step { s with gen := g, valid := v, rsp := r } = step s :=
  (step_of_reset (s := { s with gen := g, valid := v, rsp := r }) hp).trans (step_of_reset hp).symm

/-- R190: no command clears `valid`. -/
theorem step_clears_valid {s t : State} (h : step s = .next t) (hv : s.valid = true) (ht : t.valid = false) :
    s.pending.head? = some .reset := by
  by_contra hp
  have hkept : t.valid = true := step_keeps_valid h hv hp
  simp [ht] at hkept

/-- Settles O14: the reset state, the step with nothing pending, and the steps that clear `valid`. -/
theorem resetReadsNothingAndCannotFail : Obligations.ResetReadsNothingAndCannotFail := by
  unfold Obligations.ResetReadsNothingAndCannotFail
  exact ⟨fun _ _ hp => ⟨⟨_, step_of_reset hp⟩, step_reset_ignores_instance hp⟩, fun _ => step_of_nothing_pending,
    fun _ _ => step_clears_valid⟩

/-! ## The boot rule, event by event -/

section
variable {b : Nat} {cmd : Byte} {op : Op}

theorem keepsBootRule_nil (v : Bool) : keepsBootRule v ([] : List (PortEvent b)) = true := rfl

theorem keepsBootRule_reset (v : Bool) (es : List (PortEvent b)) :
    keepsBootRule v (.reset :: es) = keepsBootRule false es := rfl

/-- R64: a reserved byte breaks the rule at any time. -/
theorem keepsBootRule_reserved (h : decodeOp cmd = none) (v : Bool) (din : BitVec b) (es : List (PortEvent b)) :
    keepsBootRule v (.command cmd din :: es) = false := by
  simp [keepsBootRule, h]

/-- A seeded instance takes every command of the opcode map, and stays seeded. -/
theorem keepsBootRule_command_seeded (h : decodeOp cmd = some op) (din : BitVec b) (es : List (PortEvent b)) :
    keepsBootRule true (.command cmd din :: es) = keepsBootRule true es := by
  cases op <;> simp [keepsBootRule, h]

/-- R192: an unseeded instance takes the two seeding commands only. -/
theorem keepsBootRule_command_unseeded (h : decodeOp cmd = some op) (din : BitVec b) (es : List (PortEvent b)) :
    keepsBootRule false (.command cmd din :: es) = (decide (op = .seedb ∨ op = .seedq) && keepsBootRule true es) := by
  cases op <;> simp [keepsBootRule, h]

end

/-! ## The boot rule under a step -/

theorem decodeOp_of_decode {cfg : Config} {cmd : Byte} {din : BitVec cfg.busBits} {i : Instr}
    (h : decode cfg cmd din = .ok i) : decodeOp cmd = some i.op := by
  rw [byte_of_decode h, decodeOp_byte]

/-- The frame of a command that completes: it leaves the instance seeded and touches nothing of the host's list. -/
theorem exec_next_frame {i : Instr} {s t : State} (h : exec i s = .next t) :
    ∃ g r, t = { s with gen := g, valid := true, rsp := r } := by
  obtain ⟨g, v, r, rfl, -⟩ := commandsWriteOnlyTheirOwnState i s t h
  obtain rfl : v = true := exec_next_valid h
  exact ⟨g, r, rfl⟩

/-- The event of a command that completes leaves the rule to the rest of the list, from `valid = 1`. -/
theorem keepsBootRule_of_exec_next {s t : State} {cmd : Byte} {din : BitVec s.cfg.busBits} {i : Instr}
    (hd : decode s.cfg cmd din = .ok i) (h : exec i s = .next t) (es : List (PortEvent s.cfg.busBits)) :
    keepsBootRule s.valid (.command cmd din :: es) = keepsBootRule true es := by
  cases hv : s.valid with
  | true => exact keepsBootRule_command_seeded (decodeOp_of_decode hd) din es
  | false =>
    rw [keepsBootRule_command_unseeded (decodeOp_of_decode hd), decide_eq_true (exec_next_of_unseeded hv h), Bool.true_and]

/-- A step that completes does not change whether the host's list keeps the rule from there on. -/
theorem step_next_keepsBootRule {s t : State} (h : step s = .next t) :
    keepsBootRule t.valid t.pending = keepsBootRule s.valid s.pending := by
  rcases step_next_cases h with ⟨-, rfl⟩ | ⟨rest, hp, rfl⟩ | ⟨cmd, din, rest, i, hp, hd, hx⟩
  · rfl
  · rw [hp]
    exact (keepsBootRule_reset s.valid rest).symm
  · obtain ⟨_, _, rfl⟩ := exec_next_frame hx
    rw [hp]
    exact (keepsBootRule_of_exec_next (s := { s with pending := rest }) hd hx rest).symm

/-- The event of a step that is refused breaks the rule. -/
theorem step_refused_breaks_bootRule {s : State} {r : Refusal} (h : step s = .refused r) :
    keepsBootRule s.valid s.pending = false := by
  rcases step_refused_cases h with ⟨-, cmd, din, rest, hp, hd⟩ | ⟨-, hv, cmd, din, rest, i, hp, hd, hi⟩
  · rw [hp, keepsBootRule_reserved (decode_eq_error_iff.1 hd)]
  · have hop : ¬ (i.op = .seedb ∨ i.op = .seedq) := by
      rcases hi with rfl | rfl | rfl | rfl <;> decide
    rw [hp, hv, keepsBootRule_command_unseeded (decodeOp_of_decode hd), decide_eq_false hop, Bool.false_and]

/-- A step that completes consumes one event, if the host has one. -/
theorem step_next_pending_length {s t : State} (h : step s = .next t) (hp : s.pending ≠ []) :
    s.pending.length = t.pending.length + 1 := by
  rcases step_next_cases h with ⟨hp', -⟩ | ⟨rest, hp', rfl⟩ | ⟨cmd, din, rest, i, hp', -, hx⟩
  · exact absurd hp' hp
  · simp [hp']
  · obtain ⟨_, _, rfl⟩ := exec_next_frame hx
    simp [hp']

theorem pending_ne_nil_of_not_keepsBootRule {s : State} (h : keepsBootRule s.valid s.pending = false) :
    s.pending ≠ [] := by
  intro hp
  rw [hp, keepsBootRule_nil] at h
  contradiction

/-! ## The boot rule under a run -/

/-- R192, for a host that keeps the rule: the rule is an invariant of the run, and no step under it is refused. -/
theorem run_next_of_keepsBootRule (k : Nat) {s : State} (h : keepsBootRule s.valid s.pending = true) :
    ∃ t, Host.Core.run core k s = .next t := by
  induction k generalizing s with
  | zero => exact ⟨s, rfl⟩
  | succ k ih =>
    cases hs : step s with
    | next t =>
      rw [run_of_next hs]
      exact ih ((step_next_keepsBootRule hs).trans h)
    | fault f => cases f
    | refused r =>
      have hbroken := step_refused_breaks_bootRule hs
      simp [h] at hbroken

/-- R192, for a host that breaks the rule: each step that completes leaves the break in a shorter list. -/
theorem run_refused_of_not_keepsBootRule {n : Nat} {s : State} (hn : s.pending.length = n)
    (h : keepsBootRule s.valid s.pending = false) : ∃ r, Host.Core.run core n s = .refused r := by
  induction n generalizing s with
  | zero => exact absurd (List.length_eq_zero_iff.1 hn) (pending_ne_nil_of_not_keepsBootRule h)
  | succ n ih =>
    cases hs : step s with
    | next t =>
      rw [run_of_next hs]
      have hlen := step_next_pending_length hs (pending_ne_nil_of_not_keepsBootRule h)
      exact ih (by omega) ((step_next_keepsBootRule hs).trans h)
    | fault f => cases f
    | refused r => exact ⟨r, run_of_refused hs n⟩

/-- Settles O46: a run under the rule is never refused, and the list of a host that breaks it runs into its break. -/
theorem bootRuleIsExactlySafety : Obligations.BootRuleIsExactlySafety := by
  unfold Obligations.BootRuleIsExactlySafety
  exact fun _ => ⟨fun h k => run_next_of_keepsBootRule k h, run_refused_of_not_keepsBootRule rfl⟩

end Sys2Proof.Machine
end
